-- ==== Sys2Proof/Word.lean ====
section
/-! DEFINITION. The words and bytes of the engine (00_scope.md R8, R9, R10). -/

namespace Sys2Proof

/-- A 32-bit word: a port word, a register entry, a word of the algorithms (R6, R8). -/
abbrev Word := BitVec 32

/-- An 8-bit byte of a byte sequence (R10). -/
abbrev Byte := BitVec 8

end Sys2Proof
end

