-- ==== Sys2Proof/Config.lean ====
section
/-! DEFINITION. What one implementation fixes (00_scope.md R7) and the one free value (20_memory.md R75).
Each constant is opaque: no proof can see a value of it, so a theorem holds whatever it is. -/

namespace Sys2Proof

/-- OUT_DEPTH less 8: the OPEN parameter of R7 and R42 lies between 8 and 255 (log entry 9). -/
opaque Config.outDepthAboveEight : Fin 248

/-- OUT_DEPTH, the capacity of the output queue OUT, 8 <= OUT_DEPTH <= 255 (R7, R42). -/
def Config.outDepth : Nat := 8 + Config.outDepthAboveEight.val

/-- ENGINE_BASE divided by 4: the OPEN bus address of R7 and R72 is 4-byte aligned (log entry 10). -/
opaque Config.engineBaseWords : Nat

/-- ENGINE_BASE, the 4-byte-aligned bus address of the CMD port (R72). -/
def Config.engineBase : Nat := 4 * Config.engineBaseWords

/-- FREE VALUE. What the n-th read of an empty DOUT returns: any 32-bit word (R75, log entry 6). -/
opaque Config.emptyDout : Nat → Word

end Sys2Proof
end

