-- ==== Sys2Proof/Syntax.lean ====
section
/-! DEFINITION. The commands of the engine: one constructor for each row of spec/opcode_table.json
(30_encoding.md R103). -/

namespace Sys2Proof

/-- The algorithm a command word or the MODE bit selects: 0 = SHA-1, 1 = SHA-256 (R2, R32, R105). -/
inductive Alg where
  | sha1
  | sha256
deriving DecidableEq, Repr

/-- The eight operation codes (R103). -/
inductive Opcode where
  | init
  | update
  | finalize
  | digest
  | reset
  | freset
  | compress
  | readh
deriving DecidableEq, Repr

/-- A command (R103). Its payload words are no part of it: the meaning takes them from the command
stream with In(k) (R104). -/
inductive Instr where
  /-- INIT, with the ALG field (R200). -/
  | init (alg : Alg)
  /-- UPDATE, with LEN as an unsigned byte count (R105, R205). -/
  | update (len : Nat)
  /-- FINALIZE (R215). -/
  | finalize
  /-- DIGEST (R240). -/
  | digest
  /-- RESET (R210). -/
  | reset
  /-- FRESET (R245). -/
  | freset
  /-- COMPRESS, with LEN as an unsigned byte count; only 64 is not a BLOCK_SIZE fault (R180). -/
  | compress (len : Nat)
  /-- READH (R185). -/
  | readh
deriving DecidableEq, Repr

end Sys2Proof
end

