-- ==== Sys2Proof/WellFormed.lean ====
section
/-! DEFINITION. Which commands a command word can hold (30_encoding.md R101, R102). -/

namespace Sys2Proof

/-- LEN is a 16-bit field: 0..65535 (R101, R102, log entry 16). -/
def lenFits (len : Nat) : Bool := decide (len < 65536)

/-- A command is well formed when each operand fits its field. COMPRESS with LEN other than 64 is a
legal encoding (R106) and so well formed. -/
def wellFormed : Instr → Bool
  | .init _ => true
  | .update len => lenFits len
  | .finalize => true
  | .digest => true
  | .reset => true
  | .freset => true
  | .compress len => lenFits len
  | .readh => true

end Sys2Proof
end

