-- ==== Sys2Proof/Decode.lean ====
section
/-! DEFINITION. The decoder and the encoder of the command word (30_encoding.md R101 to R108). -/

namespace Sys2Proof

/-! ### The fields of the command word (R101) -/

/-- OPC, bits 31:24. -/
def opcField (w : Word) : BitVec 8 := w.extractLsb' 24 8
/-- RSV, bits 23:17. -/
def rsvField (w : Word) : BitVec 7 := w.extractLsb' 17 7
/-- ALG, bit 16. -/
def algField (w : Word) : BitVec 1 := w.extractLsb' 16 1
/-- LEN, bits 15:0. -/
def lenField (w : Word) : BitVec 16 := w.extractLsb' 0 16

/-! ### Decoding -/

/-- The command an operation code selects; 0x00 and 0x09..0xFF select none (R103, R106 (a)). -/
def opcodeOfBits (b : BitVec 8) : Option Opcode :=
  match b.toNat with
  | 0x01 => some .init
  | 0x02 => some .update
  | 0x03 => some .finalize
  | 0x04 => some .digest
  | 0x05 => some .reset
  | 0x06 => some .freset
  | 0x07 => some .compress
  | 0x08 => some .readh
  | _ => none

/-- ALG: 0 = SHA-1, 1 = SHA-256 (R105). -/
def algOfBit (b : BitVec 1) : Alg := if b = 0 then .sha1 else .sha256

/-- The command with its operands; a field the command does not use is ignored here, since the
decoder has checked that it is 0 (R102). -/
def instrOf (op : Opcode) (alg : Alg) (len : Nat) : Instr :=
  match op with
  | .init => .init alg
  | .update => .update len
  | .finalize => .finalize
  | .digest => .digest
  | .reset => .reset
  | .freset => .freset
  | .compress => .compress len
  | .readh => .readh

/-- Why a word is illegal: the four conditions (a) to (d) of R106. -/
inductive Illegal where
  /-- (a) OPC is 0x00 or in 0x09..0xFF. -/
  | opcode
  /-- (b) RSV is not 0. -/
  | reserved
  /-- (c) ALG = 1 on a command other than INIT. -/
  | algorithm
  /-- (d) LEN is not 0 on a command other than UPDATE and COMPRESS. -/
  | length
deriving DecidableEq, Repr

/-- The decoder: total on every 32-bit word, with the checks of R108 in their order. -/
def decode (w : Word) : Except Illegal Instr :=
  match opcodeOfBits (opcField w) with
  | none => .error .opcode
  | some op =>
    if rsvField w ≠ 0 then .error .reserved
    else if algField w ≠ 0 ∧ op ≠ .init then .error .algorithm
    else if lenField w ≠ 0 ∧ op ≠ .update ∧ op ≠ .compress then .error .length
    else .ok (instrOf op (algOfBit (algField w)) (lenField w).toNat)

/-- The number of payload words that carry N bytes: ceil(N / 4) (R100, R102). -/
def wordsForBytes (n : Nat) : Nat := (n + 3) / 4

/-- How many payload words follow a command word (R102). COMPRESS with LEN other than 64 faults and
takes none (R100, R180). -/
def payloadCount : Instr → Nat
  | .init _ => 0
  | .update len => wordsForBytes len
  | .finalize => 0
  | .digest => 0
  | .reset => 0
  | .freset => 0
  | .compress len => if len = 64 then 16 else 0
  | .readh => 0

/-- The length of a command in words (R100). -/
def commandLength (i : Instr) : Nat := 1 + payloadCount i

/-! ### Encoding -/

/-- The OPC field of each command (R103). -/
def opcodeBits : Opcode → BitVec 8
  | .init => 0x01
  | .update => 0x02
  | .finalize => 0x03
  | .digest => 0x04
  | .reset => 0x05
  | .freset => 0x06
  | .compress => 0x07
  | .readh => 0x08

/-- The ALG field of each algorithm (R105). -/
def algBit : Alg → BitVec 1
  | .sha1 => 0
  | .sha256 => 1

/-- The one command-word format, RSV = 0 (R101). -/
def commandWord (op : Opcode) (alg : BitVec 1) (len : BitVec 16) : Word :=
  opcodeBits op ++ (0 : BitVec 7) ++ alg ++ len

/-- The command word of a command (R101 to R103). -/
def encode : Instr → Word
  | .init alg => commandWord .init (algBit alg) 0
  | .update len => commandWord .update 0 (BitVec.ofNat 16 len)
  | .finalize => commandWord .finalize 0 0
  | .digest => commandWord .digest 0 0
  | .reset => commandWord .reset 0 0
  | .freset => commandWord .freset 0 0
  | .compress len => commandWord .compress 0 (BitVec.ofNat 16 len)
  | .readh => commandWord .readh 0 0

/-! ### Rows of spec/opcode_table.json -/

/-- The first word of an instruction whose bits are w, bit 0 the least significant bit of that word;
every bit from nbits up is 0. -/
def tableFirstWord (nbits w : Nat) : Word := BitVec.ofNat 32 (w % 2 ^ nbits)

/-- The command words of such an instruction in stream order: the command word, then the payload
words it needs, word j holding the bits from 32·j up. -/
def tableWords (nbits w : Nat) : List Word :=
  let count := match decode (tableFirstWord nbits w) with
    | .ok i => payloadCount i
    | .error _ => 0
  tableFirstWord nbits w ::
    (List.range count).map fun j => BitVec.ofNat 32 ((w % 2 ^ nbits) >>> (32 * (j + 1)))

/-- What the decoder reads from an instruction given by the table's bit numbering. -/
def decodeTableWord (nbits w : Nat) : Option Instr :=
  match decode (tableFirstWord nbits w) with
  | .ok i => some i
  | .error _ => none

end Sys2Proof
end

