-- ==== Sys2Proof/Machine/State.lean ====
section
/-! DEFINITION. The engine's state (10_state.md R30), the ports' and the host's (20_memory.md R71,
70_reset_and_hazards.md R310, R311), the reasons a step can stop, and the state after reset (R48). -/

namespace Sys2Proof.Machine

/-- PHASE, the lifecycle of the engine (R33). -/
inductive Phase where
  | uninit
  | active
  | halted
deriving DecidableEq, Repr

/-- The codes ERR can hold (60_exceptions.md R271). Codes 5..15 are reserved and never produced, so
they have no constructor (log entry 8). -/
inductive ErrCode where
  | none
  | illegal
  | notInit
  | blockSize
  | noResult
deriving DecidableEq, Repr

/-- A register file of 8 entries of 32 bits or ⊥ (R34, R39). `none` is the spec's own ⊥, "no value"
(R11, R31, log entry 2). -/
structure RegFile where
  e0 : Option Word
  e1 : Option Word
  e2 : Option Word
  e3 : Option Word
  e4 : Option Word
  e5 : Option Word
  e6 : Option Word
  e7 : Option Word
deriving DecidableEq, Repr

/-- A register file with ⊥ in every entry (R48). -/
def RegFile.bottom : RegFile := ⟨none, none, none, none, none, none, none, none⟩

/-- One access of the host to the engine (R71, R311), or to the bus the ports are bound to (R72). -/
inductive HostMove where
  /-- Write one word to CMD. -/
  | writeCmd (w : Word)
  /-- Read one word from DOUT. -/
  | readDout
  /-- Read STATUS. -/
  | readStatus
  /-- Assert RST. -/
  | assertRst
  /-- Release RST. -/
  | releaseRst
  /-- A bus write of `width` bytes at `addr`; `data` is the word written where width is 4. -/
  | busWrite (addr width : Nat) (data : Word)
  /-- A bus read of `width` bytes at `addr`. -/
  | busRead (addr width : Nat)
deriving DecidableEq, Repr

/-- The machine. The first eleven fields are the engine's architectural state, in the order of R30. -/
structure State where
  /-- PHASE (R33). -/
  phase : Phase
  /-- MODE (R32). -/
  mode : Alg
  /-- H0..H7, the state register file (R34). -/
  h : RegFile
  /-- BUF[0..63], 64 entries of 8 bits or ⊥ (R37). -/
  buf : Vector (Option Byte) 64
  /-- BUFLEN, the number of valid bytes of BUF (R37). -/
  buflen : BitVec 6
  /-- PROCESSED, the bytes already folded into H, modulo 2^64 (R38). -/
  processed : BitVec 64
  /-- F0..F7, the digest register file (R39). -/
  f : RegFile
  /-- FVALID (R40). -/
  fvalid : Bool
  /-- ERR (R41). -/
  err : ErrCode
  /-- OUT, head first (R42). -/
  out : List Word
  /-- cpos, the position of the next word of the command stream (R44). -/
  cpos : Nat
  /-- The words written to CMD since the last RST and not yet consumed, the word at cpos first
  (R83, log entry 15). -/
  cmd : List Word
  /-- RST is asserted (R71, R301). -/
  rst : Bool
  /-- The accesses the host has still to make, in program order (R78, R311). -/
  host : List HostMove
  /-- The words the host has read from DOUT, oldest first (R310). -/
  doutReads : List Word
  /-- The words the host has read from STATUS, oldest first. -/
  statusReads : List Word
  /-- The MODEL'S OWN field: the index of the next free value of an empty DOUT read (log entry 6). -/
  draws : Nat
deriving DecidableEq, Repr

/-- Why a step stops. -/
inductive Fault where
  /-- SAFE. A read of a register entry or buffer entry that holds ⊥, which R31 says a model must treat
  as a fault. Raised by UPDATE, FINALIZE, COMPRESS, DIGEST and READH; no reachable state reaches it. -/
  | unwrittenRead
deriving DecidableEq, Repr

/-- Why a step gives no meaning. -/
inductive Refusal where
  /-- SAFE. An instruction that has no meaning yet; raised by exec's arms only. -/
  | notModelled (mnemonic : String)
  /-- SAFE. A bus access of the wrong width, alignment, direction or offset, which R72 says a model
  refuses (log entry 10); raised by the host's bus accesses, by no command. -/
  | busAccess
deriving DecidableEq, Repr

/-- Why a computation inside a command does not give a result. -/
inductive Abort where
  /-- It read ⊥ (R31). -/
  | bottom
  /-- It formed a block from a byte string whose length is not 64 (40_compression.md R141). -/
  | blockSize
deriving DecidableEq, Repr

/-- The outcome of one step. -/
abbrev Result := Host.Outcome State Fault Refusal

/-- The state after RST and power-on (R48, R300, R302); the host's fields are empty (log entry 5). -/
def State.reset : State where
  phase := .uninit
  mode := .sha1
  h := RegFile.bottom
  buf := Vector.replicate 64 none
  buflen := 0
  processed := 0
  f := RegFile.bottom
  fvalid := false
  err := .none
  out := []
  cpos := 0
  cmd := []
  rst := false
  host := []
  doutReads := []
  statusReads := []
  draws := 0

end Sys2Proof.Machine
end

