-- ==== Sys2Proof/Machine/Operands.lean ====
section
/-! DEFINITION. Byte order and operands: be32 and its inverse (00_scope.md R10), and payload assembly
from the command stream (30_encoding.md R104, 20_memory.md R73, R74, R76). -/

namespace Sys2Proof.Machine

/-! ### Big-endian byte order (R10, R73) -/

/-- be32(b0, b1, b2, b3) = b0·2^24 + b1·2^16 + b2·2^8 + b3: the first byte is the most significant. -/
def be32 (b0 b1 b2 b3 : Byte) : Word := b0 ++ b1 ++ b2 ++ b3

/-- be32_bytes(x), the 4 bytes of a word, most significant first. -/
def be32Bytes (x : Word) : List Byte :=
  [x.extractLsb' 24 8, x.extractLsb' 16 8, x.extractLsb' 8 8, x.extractLsb' 0 8]

/-- be64_bytes(v), the 8-byte big-endian encoding of a 64-bit value. -/
def be64Bytes (v : BitVec 64) : List Byte :=
  [v.extractLsb' 56 8, v.extractLsb' 48 8, v.extractLsb' 40 8, v.extractLsb' 32 8,
   v.extractLsb' 24 8, v.extractLsb' 16 8, v.extractLsb' 8 8, v.extractLsb' 0 8]

/-! ### Payload assembly (R104) -/

/-- In(k): the k words at positions cpos+1 .. cpos+k of the command stream, where the host has
written them all; none while it has not (R104, R278). -/
def State.payload (k : Nat) (s : State) : Option (List Word) :=
  if k ≤ (s.cmd.drop 1).length then some ((s.cmd.drop 1).take k) else none

/-- bytes(P, N): the first N bytes of the words, most significant byte of each word first; the bytes
after the N-th are ignored (R104). -/
def payloadBytes (p : List Word) (n : Nat) : List Byte := (p.flatMap be32Bytes).take n

/-- The word that holds up to four bytes of a byte string, its unused low bytes 0x00 (R74, R109). -/
def packWord (d : List Byte) : Word :=
  be32 (d[0]?.getD 0) (d[1]?.getD 0) (d[2]?.getD 0) (d[3]?.getD 0)

/-- The payload words that carry a byte string (R104, R109). -/
def packBytes (d : List Byte) : List Word :=
  (List.range (wordsForBytes d.length)).map fun j => packWord (d.drop (4 * j))

end Sys2Proof.Machine
end

