-- ==== Sys2Proof/Machine/Compression.lean ====
section
/-! DEFINITION. The compression functions of SHA-1 and SHA-256 (40_compression.md R140 to R176), the
initialization constants (10_state.md R35, R36) and the state words both act on.
The constants and formulas are the numbered rules' own; the spec marks them as general knowledge
(log entry 17). -/

namespace Sys2Proof.Machine

/-! ### Word operations (00_scope.md R9) -/

/-- ROTL^k(x), for 0 < k < 32. -/
def rotl (x : Word) (k : Nat) : Word := (x <<< k) ||| (x >>> (32 - k))
/-- ROTR^k(x), for 0 < k < 32. -/
def rotr (x : Word) (k : Nat) : Word := (x >>> k) ||| (x <<< (32 - k))
/-- SHR^k(x), logical with zero fill. -/
def shr (x : Word) (k : Nat) : Word := x >>> k

/-- Ch (R152, R171). -/
def ch (x y z : Word) : Word := (x &&& y) ^^^ (~~~x &&& z)
/-- Maj (R152, R171). -/
def maj (x y z : Word) : Word := (x &&& y) ^^^ (x &&& z) ^^^ (y &&& z)
/-- Parity (R152). -/
def parity (x y z : Word) : Word := x ^^^ y ^^^ z

/-- Σ0 (R171). -/
def bigSigma0 (x : Word) : Word := rotr x 2 ^^^ rotr x 13 ^^^ rotr x 22
/-- Σ1 (R171). -/
def bigSigma1 (x : Word) : Word := rotr x 6 ^^^ rotr x 11 ^^^ rotr x 25
/-- σ0 (R171). -/
def smallSigma0 (x : Word) : Word := rotr x 7 ^^^ rotr x 18 ^^^ shr x 3
/-- σ1 (R171). -/
def smallSigma1 (x : Word) : Word := rotr x 17 ^^^ rotr x 19 ^^^ shr x 10

/-! ### Blocks (R140, R141) -/

/-- A block: exactly 64 bytes (R140). -/
structure Block where
  bytes : List Byte
  size : bytes.length = 64
deriving DecidableEq, Repr

/-- Forming a block from a byte string; it fails unless the length is 64 (R141). -/
def formBlock (d : List Byte) : Option Block :=
  if h : d.length = 64 then some ⟨d, h⟩ else none

/-- M[j] = be32(B[4j], B[4j+1], B[4j+2], B[4j+3]) (R140). -/
def blockWord (b : Block) (j : Fin 16) : Word :=
  be32 (b.bytes[4 * j.val]'(by have := b.size; omega)) (b.bytes[4 * j.val + 1]'(by have := b.size; omega))
    (b.bytes[4 * j.val + 2]'(by have := b.size; omega)) (b.bytes[4 * j.val + 3]'(by have := b.size; omega))

/-- The 16 words M[0..16) of a block, in original order (R140). -/
def blockWords (b : Block) : Vector Word 16 :=
  #v[blockWord b 0, blockWord b 1, blockWord b 2, blockWord b 3, blockWord b 4, blockWord b 5,
     blockWord b 6, blockWord b 7, blockWord b 8, blockWord b 9, blockWord b 10, blockWord b 11,
     blockWord b 12, blockWord b 13, blockWord b 14, blockWord b 15]

/-! ### Message schedule (R143, R151, R172)

The schedule is unrolled through a window of 16 words, W[t..t+16), which R143 allows. -/

/-- The window one word further: W[t+1..t+17), with x = W[t+16]. -/
def slideWindow (w : Vector Word 16) (x : Word) : Vector Word 16 :=
  #v[w[1], w[2], w[3], w[4], w[5], w[6], w[7], w[8], w[9], w[10], w[11], w[12], w[13], w[14], w[15], x]

/-- The first n words of the schedule whose window starts at w; `next` gives W[t+16] from W[t..t+16). -/
def unrollSchedule (next : Vector Word 16 → Word) : Nat → Vector Word 16 → List Word
  | 0, _ => []
  | n + 1, w => w[0] :: unrollSchedule next n (slideWindow w (next w))

/-- SHA-1: W[t] = ROTL^1(W[t-3] ⊕ W[t-8] ⊕ W[t-14] ⊕ W[t-16]) (R151). -/
def nextSha1 (w : Vector Word 16) : Word := rotl (w[13] ^^^ w[8] ^^^ w[2] ^^^ w[0]) 1

/-- SHA-256: W[t] = σ1(W[t-2]) + W[t-7] + σ0(W[t-15]) + W[t-16] (R172). -/
def nextSha256 (w : Vector Word 16) : Word := smallSigma1 w[14] + w[9] + smallSigma0 w[1] + w[0]

/-- schedule_SHA1(M), W[0..80) (R151). -/
def scheduleSha1 (m : Vector Word 16) : List Word := unrollSchedule nextSha1 80 m

/-- schedule_SHA256(M), W[0..64) (R172). -/
def scheduleSha256 (m : Vector Word 16) : List Word := unrollSchedule nextSha256 64 m

/-! ### SHA-1 (R150 to R155) -/

/-- The five words of a SHA-1 state, or its working variables a..e. -/
structure Sha1Vars where
  a : Word
  b : Word
  c : Word
  d : Word
  e : Word
deriving DecidableEq, Repr

/-- f_t(b, c, d): Ch, Parity, Maj, Parity by quartile (R152, 90_conflicts.md C4). -/
def sha1F (t : Nat) (b c d : Word) : Word :=
  if t < 20 then ch b c d else if t < 40 then parity b c d else if t < 60 then maj b c d else parity b c d

/-- K_t by quartile (R153). -/
def sha1K (t : Nat) : Word :=
  if t < 20 then 0x5A827999 else if t < 40 then 0x6ED9EBA1 else if t < 60 then 0x8F1BBCDC else 0xCA62C1D6

/-- round_SHA1(t, a, b, c, d, e, Wt) (R154, 90_conflicts.md C2). -/
def roundSha1 (t : Nat) (v : Sha1Vars) (w : Word) : Sha1Vars :=
  let T := rotl v.a 5 + sha1F t v.b v.c v.d + v.e + sha1K t + w
  ⟨T, v.a, rotl v.b 30, v.c, v.d⟩

/-- The round loop for t = 0 .. 79 (R150). -/
def roundsSha1 (w : List Word) (v : Sha1Vars) : Sha1Vars :=
  ((List.range 80).zip w).foldl (fun v p => roundSha1 p.1 v p.2) v

/-- compress_SHA1(S, B) with its feed-forward (R150, R155). -/
def compressSha1 (s : Sha1Vars) (b : Block) : Sha1Vars :=
  let v := roundsSha1 (scheduleSha1 (blockWords b)) s
  ⟨s.a + v.a, s.b + v.b, s.c + v.c, s.d + v.d, s.e + v.e⟩

/-! ### SHA-256 (R170 to R175) -/

/-- The eight words of a SHA-256 state, or its working variables a..h. -/
structure Sha256Vars where
  a : Word
  b : Word
  c : Word
  d : Word
  e : Word
  f : Word
  g : Word
  h : Word
deriving DecidableEq, Repr

/-- The 64 round constants K_0 .. K_63 (R173). -/
def sha256K : List Word :=
  [0x428A2F98, 0x71374491, 0xB5C0FBCF, 0xE9B5DBA5, 0x3956C25B, 0x59F111F1, 0x923F82A4, 0xAB1C5ED5] ++
  [0xD807AA98, 0x12835B01, 0x243185BE, 0x550C7DC3, 0x72BE5D74, 0x80DEB1FE, 0x9BDC06A7, 0xC19BF174] ++
  [0xE49B69C1, 0xEFBE4786, 0x0FC19DC6, 0x240CA1CC, 0x2DE92C6F, 0x4A7484AA, 0x5CB0A9DC, 0x76F988DA] ++
  [0x983E5152, 0xA831C66D, 0xB00327C8, 0xBF597FC7, 0xC6E00BF3, 0xD5A79147, 0x06CA6351, 0x14292967] ++
  [0x27B70A85, 0x2E1B2138, 0x4D2C6DFC, 0x53380D13, 0x650A7354, 0x766A0ABB, 0x81C2C92E, 0x92722C85] ++
  [0xA2BFE8A1, 0xA81A664B, 0xC24B8B70, 0xC76C51A3, 0xD192E819, 0xD6990624, 0xF40E3585, 0x106AA070] ++
  [0x19A4C116, 0x1E376C08, 0x2748774C, 0x34B0BCB5, 0x391C0CB3, 0x4ED8AA4A, 0x5B9CCA4F, 0x682E6FF3] ++
  [0x748F82EE, 0x78A5636F, 0x84C87814, 0x8CC70208, 0x90BEFFFA, 0xA4506CEB, 0xBEF9A3F7, 0xC67178F2]

/-- round_SHA256, with k = K_t and w = W[t] (R174, 90_conflicts.md C2). -/
def roundSha256 (v : Sha256Vars) (k w : Word) : Sha256Vars :=
  let T1 := v.h + bigSigma1 v.e + ch v.e v.f v.g + k + w
  let T2 := bigSigma0 v.a + maj v.a v.b v.c
  ⟨T1 + T2, v.a, v.b, v.c, v.d + T1, v.e, v.f, v.g⟩

/-- The round loop for t = 0 .. 63: round t takes K_t and W[t] (R170). -/
def roundsSha256 (w : List Word) (v : Sha256Vars) : Sha256Vars :=
  (sha256K.zip w).foldl (fun v p => roundSha256 v p.1 p.2) v

/-- compress_SHA256(S, B) with its feed-forward (R170, R175). -/
def compressSha256 (s : Sha256Vars) (b : Block) : Sha256Vars :=
  let v := roundsSha256 (scheduleSha256 (blockWords b)) s
  ⟨s.a + v.a, s.b + v.b, s.c + v.c, s.d + v.d, s.e + v.e, s.f + v.f, s.g + v.g, s.h + v.h⟩

/-! ### State words of either algorithm -/

/-- n(MODE) state words: five under SHA-1, eight under SHA-256 (R6, R34). -/
inductive StateWords where
  | sha1 (v : Sha1Vars)
  | sha256 (v : Sha256Vars)
deriving DecidableEq, Repr

/-- n(MODE) (R6). -/
def stateWordCount : Alg → Nat
  | .sha1 => 5
  | .sha256 => 8

/-- The algorithm whose words these are. -/
def stateWordAlg : StateWords → Alg
  | .sha1 _ => .sha1
  | .sha256 _ => .sha256

/-- The state words as a list, entry 0 first. -/
def stateWordList : StateWords → List Word
  | .sha1 v => [v.a, v.b, v.c, v.d, v.e]
  | .sha256 v => [v.a, v.b, v.c, v.d, v.e, v.f, v.g, v.h]

/-- IV(MODE) (R35, R36). -/
def initialWords : Alg → StateWords
  | .sha1 => .sha1 ⟨0x67452301, 0xEFCDAB89, 0x98BADCFE, 0x10325476, 0xC3D2E1F0⟩
  | .sha256 => .sha256 ⟨0x6A09E667, 0xBB67AE85, 0x3C6EF372, 0xA54FF53A, 0x510E527F, 0x9B05688C,
      0x1F83D9AB, 0x5BE0CD19⟩

/-- compress_MODE(S, B), a pure function of state words and block (R142). -/
def compress (s : StateWords) (b : Block) : StateWords :=
  match s with
  | .sha1 v => .sha1 (compressSha1 v b)
  | .sha256 v => .sha256 (compressSha256 v b)

/-- Form a block from a byte string and compress it (R140 to R142). -/
def compressBytes (s : StateWords) (d : List Byte) : Except Abort StateWords :=
  match formBlock d with
  | none => .error .blockSize
  | some b => .ok (compress s b)

/-- Compress the blocks in order, each depending on the result of the one before (R307). -/
def compressAll (s : StateWords) : List (List Byte) → Except Abort StateWords
  | [] => .ok s
  | d :: ds =>
    match compressBytes s d with
    | .error e => .error e
    | .ok t => compressAll t ds

/-! ### Splitting a byte string into blocks (41_update.md R206, R215) -/

/-- The first n 64-byte pieces of a byte string, in order. -/
def takePieces : Nat → List Byte → List (List Byte)
  | 0, _ => []
  | n + 1, d => d.take 64 :: takePieces n (d.drop 64)

/-- As many complete 64-byte pieces as possible, in order. -/
def fullBlocks (d : List Byte) : List (List Byte) := takePieces (d.length / 64) d

/-- The leftover tail, shorter than a block. -/
def leftover (d : List Byte) : List Byte := d.drop (64 * (d.length / 64))

end Sys2Proof.Machine
end

