-- ==== Sys2Proof/Machine/Flags.lean ====
section
/-! DEFINITION. STATUS, the read-only status register (10_state.md R43); the engine has no other
flags (R45). -/

namespace Sys2Proof.Machine

/-- A single bit as a word. -/
def bitWord (b : Bool) : Word := if b then 1 else 0

/-- The 4-bit code of ERR (60_exceptions.md R271). -/
def errBits : ErrCode → BitVec 4
  | .none => 0
  | .illegal => 1
  | .notInit => 2
  | .blockSize => 3
  | .noResult => 4

/-- STATUS[0], ACTIVE: PHASE = ACTIVE. -/
def State.activeBit (s : State) : Bool := decide (s.phase = .active)
/-- STATUS[3], HALT: PHASE = HALTED. -/
def State.haltBit (s : State) : Bool := decide (s.phase = .halted)
/-- STATUS[1], MODE: 0 = SHA-1, 1 = SHA-256 (R32). -/
def State.modeBit (s : State) : Bool := decide (s.mode = .sha256)
/-- STATUS[23:16], OUTCNT, the number of words in OUT; at most 255 words are ever there (R42,
log entry 14). -/
def State.outcntBits (s : State) : BitVec 8 := BitVec.ofNat 8 s.out.length

/-- STATUS = ACTIVE | MODE<<1 | FVALID<<2 | HALT<<3 | ERR<<4 | BUFLEN<<8 | OUTCNT<<16 (R43). -/
def State.status (s : State) : Word :=
  bitWord s.activeBit ||| bitWord s.modeBit <<< 1 ||| bitWord s.fvalid <<< 2 ||| bitWord s.haltBit <<< 3 |||
    (errBits s.err).setWidth 32 <<< 4 ||| s.buflen.setWidth 32 <<< 8 ||| s.outcntBits.setWidth 32 <<< 16

end Sys2Proof.Machine
end

