-- ==== Sys2Proof/Machine/Ops.lean ====
section
/-! DEFINITION. The named operations over the state: the command stream, the fault entry
(60_exceptions.md R272), the register files, the input buffer, and the output queue. -/

namespace Sys2Proof.Machine

/-! ### The command stream and taking a fault -/

/-- cpos <- cpos + k: the next k words of the command stream are consumed (R11, R44). -/
def State.consume (k : Nat) (s : State) : State :=
  { s with cpos := s.cpos + k, cmd := s.cmd.drop k }

/-- raise Fault(code): ERR <- code, PHASE <- HALTED, the command word consumed, nothing else changed
(R272, log entry 1). -/
def State.raiseFault (code : ErrCode) (s : State) : State :=
  { s with err := code, phase := .halted }.consume 1

/-- In PHASE HALTED a word is consumed and discarded (R273, log entry 13). -/
def State.discardWord (s : State) : State := s.consume 1

/-- The phase check of a command other than INIT: discarded in HALTED (R273), NOT_INIT in UNINIT
(R33, R108), and its own effect in ACTIVE. -/
def whenActive (s : State) (run : Result) : Result :=
  match s.phase with
  | .halted => .next s.discardWord
  | .uninit => .next (s.raiseFault .notInit)
  | .active => run

/-- The end of a command whose computation may abort: on a result the command's k words are consumed;
a read of ⊥ is the model's fault (R31); a block of another length is Fault(BLOCK_SIZE) (R141). -/
def conclude (s : State) (k : Nat) : Except Abort State → Result
  | .ok t => .next (t.consume k)
  | .error .bottom => .fault .unwrittenRead
  | .error .blockSize => .next (s.raiseFault .blockSize)

/-! ### The register files H and F (10_state.md R34, R39) -/

/-- The n(MODE) entries an algorithm uses, where none of them holds ⊥. -/
def readFile (m : Alg) (r : RegFile) : Option StateWords :=
  match m with
  | .sha1 =>
    match r.e0, r.e1, r.e2, r.e3, r.e4 with
    | some a, some b, some c, some d, some e => some (.sha1 ⟨a, b, c, d, e⟩)
    | _, _, _, _, _ => none
  | .sha256 =>
    match r.e0, r.e1, r.e2, r.e3, r.e4, r.e5, r.e6, r.e7 with
    | some a, some b, some c, some d, some e, some f, some g, some h =>
      some (.sha256 ⟨a, b, c, d, e, f, g, h⟩)
    | _, _, _, _, _, _, _, _ => none

/-- Write all n(MODE) entries at once, leaving the others (R34). -/
def writeFile (w : StateWords) (r : RegFile) : RegFile :=
  match w with
  | .sha1 v => { r with e0 := some v.a, e1 := some v.b, e2 := some v.c, e3 := some v.d, e4 := some v.e }
  | .sha256 v => ⟨some v.a, some v.b, some v.c, some v.d, some v.e, some v.f, some v.g, some v.h⟩

/-- Entries [0..n) written and [n..8) ⊥. -/
def freshFile (w : StateWords) : RegFile := writeFile w RegFile.bottom

/-! ### The input buffer (10_state.md R37) -/

/-- All the values of a list of entries, where none of them is ⊥. -/
def allWritten : List (Option Byte) → Option (List Byte)
  | [] => some []
  | none :: _ => none
  | some b :: es =>
    match allWritten es with
    | none => none
    | some bs => some (b :: bs)

/-- BUF[0..BUFLEN), the unprocessed bytes in input order, where none of them is ⊥. -/
def State.unprocessed (s : State) : Option (List Byte) := allWritten (s.buf.toList.take s.buflen.toNat)

/-- BUF[i .. i+|d|) <- d. -/
def writeBytes (buf : Vector (Option Byte) 64) (i : Nat) : List Byte → Vector (Option Byte) 64
  | [] => buf
  | b :: bs => writeBytes (buf.setIfInBounds i (some b)) (i + 1) bs

/-- BUF with ⊥ in every entry (R48). -/
def emptyBuf : Vector (Option Byte) 64 := Vector.replicate 64 none

/-- BUF[BUFLEN .. BUFLEN+|d|) <- d; BUFLEN <- BUFLEN + |d| (R206, Case B, log entry 20). -/
def State.appendBuf (d : List Byte) (s : State) : State :=
  { s with
    buf := writeBytes s.buf s.buflen.toNat d
    buflen := s.buflen + BitVec.ofNat 6 d.length }

/-- BUF[0..|d|) <- d; BUF[|d|..64) <- ⊥; BUFLEN <- |d| (R206). -/
def State.refillBuf (d : List Byte) (s : State) : State :=
  { s with
    buf := writeBytes emptyBuf 0 d
    buflen := BitVec.ofNat 6 d.length }

/-! ### Compression of a block into the state (R206, R180) -/

/-- H[0..n(MODE)) <- compress_MODE(H[0..n(MODE)), B), for the block of the bytes d. -/
def State.compressIntoH (d : List Byte) (s : State) : Except Abort State :=
  match readFile s.mode s.h with
  | none => .error .bottom
  | some w =>
    match compressBytes w d with
    | .error e => .error e
    | .ok w' => .ok { s with h := writeFile w' s.h }

/-- compress_block(B): the compression, and PROCESSED <- (PROCESSED + 64) mod 2^64 (R206). -/
def State.compressBlock (d : List Byte) (s : State) : Except Abort State :=
  match s.compressIntoH d with
  | .error e => .error e
  | .ok t => .ok { t with processed := t.processed + 64 }

/-- compress_block of each block in order (R206, R307). -/
def State.feedBlocks (s : State) : List (List Byte) → Except Abort State
  | [] => .ok s
  | d :: ds =>
    match s.compressBlock d with
    | .error e => .error e
    | .ok t => t.feedBlocks ds

/-- Case A of the source's update: complete blocks in order, the tail becomes the new buffer (R206). -/
def State.absorbAligned (d : List Byte) (s : State) : Except Abort State :=
  match s.feedBlocks (fullBlocks d) with
  | .error e => .error e
  | .ok t => .ok (t.refillBuf (leftover d))

/-- absorb(d), the three cases of R206. -/
def State.absorb (d : List Byte) (s : State) : Except Abort State :=
  if s.buflen.toNat + d.length < 64 then .ok (s.appendBuf d)
  else if s.buflen.toNat = 0 then s.absorbAligned d
  else
    match s.unprocessed with
    | none => .error .bottom
    | some r =>
      match s.compressBlock (r ++ d.take (64 - s.buflen.toNat)) with
      | .error e => .error e
      | .ok t => t.absorbAligned (d.drop (64 - s.buflen.toNat))

/-! ### Padding and finalization (R215 to R217) -/

/-- bitlen() = ((PROCESSED + BUFLEN) · 8) mod 2^64, the sum modulo 2^64 first (R217). -/
def State.bitlen (s : State) : BitVec 64 := (s.processed + s.buflen.setWidth 64) * 8

/-- z = (55 - |r|) mod 64, for a remainder of 0..63 bytes (R216). -/
def padZeros (n : Nat) : Nat := (119 - n) % 64

/-- pad(r, L) = r ++ [0x80] ++ zeros(z) ++ be64_bytes(L) (R216). -/
def pad (r : List Byte) (bits : BitVec 64) : List Byte :=
  r ++ [0x80] ++ List.replicate (padZeros r.length) 0 ++ be64Bytes bits

/-- The state words after the padded block or blocks, H itself left alone (R215). -/
def State.finalWords (s : State) : Except Abort StateWords :=
  match s.unprocessed with
  | none => .error .bottom
  | some r =>
    match readFile s.mode s.h with
    | none => .error .bottom
    | some w => compressAll w (fullBlocks (pad r s.bitlen))

/-! ### Starting afresh (R200, R210, R245) -/

/-- H <- IV(MODE) with ⊥ in the entries MODE does not use; BUF, BUFLEN and PROCESSED cleared (R210). -/
def State.freshAccumulator (s : State) : State :=
  { s with h := freshFile (initialWords s.mode), buf := emptyBuf, buflen := 0, processed := 0 }

/-- F <- ⊥; FVALID <- 0 (R200, R245). -/
def State.discardFinal (s : State) : State := { s with f := RegFile.bottom, fvalid := false }

/-- F[0..n(MODE)) <- S, F[n(MODE)..8) <- ⊥, FVALID <- 1 (R215). -/
def State.setFinal (w : StateWords) (s : State) : State := { s with f := freshFile w, fvalid := true }

/-- F and FVALID set to the finalized state; H, BUF, BUFLEN and PROCESSED unchanged (R215). -/
def State.finalized (s : State) : Except Abort State :=
  match s.finalWords with
  | .error e => .error e
  | .ok w => .ok (s.setFinal w)

/-! ### The output queue (10_state.md R42, 60_exceptions.md R286) -/

/-- OUTCNT + n(MODE) <= OUT_DEPTH: DIGEST and READH are not held. -/
def State.hasRoom (s : State) : Bool :=
  decide (s.out.length + stateWordCount s.mode ≤ Config.outDepth)

/-- for i in 0 .. n(MODE)-1: Out(x[i]): the words enter OUT at its tail, entry 0 first. -/
def State.pushOut (w : StateWords) (s : State) : State := { s with out := s.out ++ stateWordList w }

/-- Append the n(MODE) words of a register file to OUT (R185, R240). -/
def State.outputFile (r : RegFile) (s : State) : Except Abort State :=
  match readFile s.mode r with
  | none => .error .bottom
  | some w => .ok (s.pushOut w)

end Sys2Proof.Machine
end

