-- ==== Sys2Proof/Machine/Finalized.lean ====
section
/-! DEFINITION. The finalized state's commands: DIGEST and FRESET (42_finalize.md). -/

namespace Sys2Proof.Machine

/-- DIGEST (R240): NO_RESULT without a finalized state, checked before the room in OUT; while OUT has
no room the engine waits and the command word stays at cpos (R286, log entry 3). -/
def execDigest (s : State) : Result :=
  whenActive s <|
    if s.fvalid = false then .next (s.raiseFault .noResult)
    else if s.hasRoom = false then .next s
    else conclude s 1 (s.outputFile s.f)

/-- FRESET (R245): RESET followed by discarding F; legal with FVALID = 0. -/
def execFreset (s : State) : Result :=
  whenActive s (.next (s.freshAccumulator.discardFinal.consume 1))

end Sys2Proof.Machine
end

