-- ==== Sys2Proof/Machine/StateFile.lean ====
section
/-! DEFINITION. The commands that reach the state register file directly: COMPRESS and READH
(40_compression.md section 5). -/

namespace Sys2Proof.Machine

/-- COMPRESS (R180): BLOCK_SIZE unless LEN is 64, with only the command word consumed; while a payload
word is missing the engine waits (R278, log entry 3). PROCESSED does not count the block. -/
def execCompress (len : Nat) (s : State) : Result :=
  whenActive s <|
    if len ≠ 64 then .next (s.raiseFault .blockSize)
    else
      match s.payload 16 with
      | none => .next s
      | some p => conclude s 17 (s.compressIntoH (payloadBytes p 64))

/-- READH (R185): while OUT has no room the engine waits and the command word stays at cpos (R286,
log entry 3). -/
def execReadh (s : State) : Result :=
  whenActive s <|
    if s.hasRoom = false then .next s
    else conclude s 1 (s.outputFile s.h)

end Sys2Proof.Machine
end

