-- ==== Sys2Proof/Machine/Streaming.lean ====
section
/-! DEFINITION. The streaming accumulator's commands: INIT, UPDATE, RESET and FINALIZE (41_update.md). -/

namespace Sys2Proof.Machine

/-- INIT's effect (R200): a fresh accumulator for the algorithm, F discarded, PHASE ACTIVE. -/
def State.initialize (alg : Alg) (s : State) : State :=
  { { s with mode := alg }.freshAccumulator.discardFinal with phase := .active }

/-- INIT (R200): accepted in UNINIT and ACTIVE, discarded in HALTED like every other word (R273). -/
def execInit (alg : Alg) (s : State) : Result :=
  match s.phase with
  | .halted => .next s.discardWord
  | .uninit => .next ((s.initialize alg).consume 1)
  | .active => .next ((s.initialize alg).consume 1)

/-- UPDATE (R205): absorb the LEN bytes of the payload; while a payload word is missing the engine
waits and the command word stays at cpos (R278, log entry 3). -/
def execUpdate (len : Nat) (s : State) : Result :=
  whenActive s <|
    match s.payload (wordsForBytes len) with
    | none => .next s
    | some p => conclude s (1 + wordsForBytes len) (s.absorb (payloadBytes p len))

/-- FINALIZE (R215). -/
def execFinalize (s : State) : Result :=
  whenActive s (conclude s 1 s.finalized)

/-- RESET (R210): F, FVALID and MODE are kept. -/
def execReset (s : State) : Result :=
  whenActive s (.next (s.freshAccumulator.consume 1))

end Sys2Proof.Machine
end

