-- ==== Sys2Proof/Machine/Holds.lean ====
section
/-! DEFINITION. What is held and why: a command that is not enabled (60_exceptions.md R278, R286), and
the host's write to CMD behind a held output command (20_memory.md R83). -/

namespace Sys2Proof.Machine

/-- A command that is not enabled yet: its payload words are not all there (R278), or its words do
not fit in OUT (R286). A command that faults is never held (R108, R240, log entry 4). -/
def waits (i : Instr) (s : State) : Bool :=
  match s.phase with
  | .uninit => false
  | .halted => false
  | .active =>
    match i with
    | .init _ => false
    | .update len => (s.payload (wordsForBytes len)).isNone
    | .finalize => false
    | .digest => s.fvalid && !s.hasRoom
    | .reset => false
    | .freset => false
    | .compress len => decide (len = 64) && (s.payload 16).isNone
    | .readh => !s.hasRoom

/-- The commands that put words in OUT, the ones whose hold R83 names. -/
def isOutput : Instr → Bool
  | .init _ => false
  | .update _ => false
  | .finalize => false
  | .digest => true
  | .reset => false
  | .freset => false
  | .compress _ => false
  | .readh => true

/-- Back-pressure (R83): the DIGEST or READH at cpos is held for room in OUT, so the CMD port holds the
host's writes until it executes. A word written while RST is asserted is discarded instead (R301). -/
def State.writeHeld (s : State) : Bool :=
  !s.rst &&
    match s.cmd with
    | [] => false
    | w :: _ =>
      match decode w with
      | .error _ => false
      | .ok i => isOutput i && waits i s

end Sys2Proof.Machine
end

