-- ==== Sys2Proof/Machine/Ports.lean ====
section
/-! DEFINITION. The host's accesses to the four ports and to the bus they may be bound to
(20_memory.md R71, R72, R75, R77, R78, R83; 70_reset_and_hazards.md R300, R301, R311). -/

namespace Sys2Proof.Machine

/-- A write of CMD appends one word to the command stream; a word written while RST is asserted is
discarded (R71, R301). -/
def State.writeCmd (w : Word) (s : State) : State :=
  if s.rst then s else { s with cmd := s.cmd ++ [w] }

/-- A read of DOUT removes and returns the word at the head of OUT; where OUT is empty it returns any
value, a free value, and changes nothing of the engine (R75, log entry 6). -/
def State.readDout (s : State) : State :=
  match s.out with
  | [] => { s with doutReads := s.doutReads ++ [Config.emptyDout s.draws], draws := s.draws + 1 }
  | x :: rest => { s with out := rest, doutReads := s.doutReads ++ [x] }

/-- A read of STATUS has no side effect on the engine (R71, R77). -/
def State.readStatus (s : State) : State :=
  { s with statusReads := s.statusReads ++ [s.status] }

/-- RST asserted: the engine takes the state of R48 and every word not yet executed is discarded
(R300, R301). What the host still does and what it has read are not the engine's (log entry 7). -/
def State.assertRst (s : State) : State :=
  { State.reset with
    rst := true
    host := s.host
    doutReads := s.doutReads
    statusReads := s.statusReads
    draws := s.draws }

/-- RST released (R301). -/
def State.releaseRst (s : State) : State := { s with rst := false }

/-- A 32-bit write at ENGINE_BASE + 0 is a write of CMD; every other bus write is refused (R72). -/
def State.busWrite (addr width : Nat) (data : Word) (s : State) : Result :=
  if addr = Config.engineBase ∧ width = 4 then .next (s.writeCmd data) else .refused .busAccess

/-- A 32-bit read at ENGINE_BASE + 4 is a read of DOUT and one at ENGINE_BASE + 8 a read of STATUS;
every other bus read is refused (R72). -/
def State.busRead (addr width : Nat) (s : State) : Result :=
  if addr = Config.engineBase + 4 ∧ width = 4 then .next s.readDout
  else if addr = Config.engineBase + 8 ∧ width = 4 then .next s.readStatus
  else .refused .busAccess

/-- One access of the host (R71, R311). -/
def hostMove (m : HostMove) (s : State) : Result :=
  match m with
  | .writeCmd w => .next (s.writeCmd w)
  | .readDout => .next s.readDout
  | .readStatus => .next s.readStatus
  | .assertRst => .next s.assertRst
  | .releaseRst => .next s.releaseRst
  | .busWrite addr width data => s.busWrite addr width data
  | .busRead addr width => s.busRead addr width

/-- An access that writes a word to CMD, directly or over the bus (R71, R72). -/
def writesCmd : HostMove → Bool
  | .writeCmd _ => true
  | .busWrite addr width _ => decide (addr = Config.engineBase ∧ width = 4)
  | .readDout => false
  | .readStatus => false
  | .assertRst => false
  | .releaseRst => false
  | .busRead _ _ => false

/-- The host's next access is a write that the CMD port holds (R83). -/
def State.hostBlocked (s : State) : Bool :=
  match s.host with
  | [] => false
  | m :: _ => writesCmd m && s.writeHeld

/-- The accesses the host can make now, the next first. A write the CMD port holds is not made yet, and the
port accesses behind it wait in program order (R78, R83). RST is a signal and no port access: the host may
assert it at any time (R311), so its next RST is asserted while its write is held, and what stands before it
in the list is never made (log entry 15). -/
def State.readyHost (s : State) : List HostMove :=
  if s.hostBlocked then s.host.dropWhile (fun m => decide (m ≠ .assertRst)) else s.host

/-- The host's turn. Where it can make no access the engine stays idle or waiting and keeps all its state
(60_exceptions.md R285, log entry 3). -/
def hostStep (s : State) : Result :=
  match s.readyHost with
  | [] => .next s
  | m :: rest => hostMove m { s with host := rest }

end Sys2Proof.Machine
end

