-- ==== Sys2Proof/Machine/Fetch.lean ====
section
/-! DEFINITION. What the machine does next: which agent moves and what the word at cpos asks
(30_encoding.md R108, 20_memory.md R78, 60_exceptions.md R276, R278, R286). -/

namespace Sys2Proof.Machine

/-- What one step does. -/
inductive Turn where
  /-- The engine is not enabled, or RST wins: the host makes its next access. -/
  | host
  /-- PHASE is HALTED: the word at cpos is discarded (R273). -/
  | discard
  /-- The word at cpos is illegal (R106). -/
  | illegal
  /-- The command at cpos executes. -/
  | command (i : Instr)
deriving DecidableEq, Repr

/-- Whose turn it is (log entry 5): RST first (R276, R301), then the engine while it is enabled, since
a read is held until the commands before it complete (R78), then the host. -/
def turn (s : State) : Turn :=
  if s.rst = true ∨ s.host.head? = some .assertRst then .host
  else
    match s.cmd with
    | [] => .host
    | w :: _ =>
      match s.phase with
      | .halted => .discard
      | .uninit | .active =>
        match decode w with
        | .error _ => .illegal
        | .ok i => if waits i s then .host else .command i

end Sys2Proof.Machine
end

