-- ==== Sys2Proof/Machine/Step.lean ====
section
/-! DEFINITION. One step of the machine (30_encoding.md R108), and the placing of an instruction where
the step takes its next word. -/

namespace Sys2Proof.Machine

/-- One step: the command at cpos, a discarded or illegal word, or the host's next access. -/
def step (s : State) : Host.Outcome State Fault Refusal :=
  match turn s with
  | .host => hostStep s
  | .discard => .next s.discardWord
  | .illegal => .next (s.raiseFault .illegal)
  | .command i => exec i s

/-- s with an instruction of spec/opcode_table.json as the next words of the command stream, RST
released and no RST about to be asserted (log entry 11). -/
def State.withFetchWord (s : State) (nbits w : Nat) : State :=
  { s with
    cmd := tableWords nbits w ++ s.cmd.drop (tableWords nbits w).length
    rst := false
    host := s.host.dropWhile (fun m => decide (m = .assertRst)) }

end Sys2Proof.Machine
end

