-- ==== Sys2Proof/Machine/Assembler.lean ====
section
/-! DEFINITION. The assembler's lines and pseudo-instructions as data, and the words they stand for
(30_encoding.md R109, R110). AsmText.lean reads the lines from text. -/

namespace Sys2Proof.Machine

/-- One item of <bytes> (R109). -/
inductive ByteItem where
  /-- "text": the ASCII bytes of text, no terminator. -/
  | text (t : List Char)
  /-- hex: the bytes its digit pairs give, first pair first. -/
  | hex (d : List Byte)
  /-- zeros(n): n bytes 0x00. -/
  | zeros (n : Nat)
  /-- bytes(v, n): n bytes each of value v. -/
  | bytes (v : Byte) (n : Nat)
deriving DecidableEq, Repr

/-- One line of an assembly program (R109), HASH among them (R110). -/
inductive AsmLine where
  | init (alg : Alg)
  | update (d : List ByteItem)
  | finalize
  | digest
  | reset
  | freset
  | compress (d : List ByteItem)
  | readh
  | word (w : Word)
  | hash (alg : Alg) (d : List ByteItem)
deriving DecidableEq, Repr

/-- The bytes of one item. -/
def itemBytes : ByteItem → List Byte
  | .text t => t.map fun c => BitVec.ofNat 8 c.toNat
  | .hex d => d
  | .zeros n => List.replicate n 0
  | .bytes v n => List.replicate n v

/-- The byte string of <bytes>: its items in order. -/
def itemsBytes (d : List ByteItem) : List Byte := d.flatMap itemBytes

/-- The byte strings of the UPDATE commands one UPDATE line stands for: pieces of 65535 bytes in order,
then the remaining bytes (R110). The first argument bounds the number of full pieces. -/
def updatePieces : Nat → List Byte → List (List Byte)
  | 0, d => [d]
  | n + 1, d => if d.length ≤ 65535 then [d] else d.take 65535 :: updatePieces n (d.drop 65535)

/-- The words of one UPDATE command with its payload (R109). -/
def updateWords (d : List Byte) : List Word := encode (.update d.length) :: packBytes d

/-- The words an UPDATE line stands for, expanded where it has more than 65535 bytes (R110). -/
def assembleUpdate (d : List Byte) : List Word :=
  (updatePieces (d.length / 65535) d).flatMap updateWords

/-- The words of one line; none for a COMPRESS whose byte count does not fit LEN (R109, R110). -/
def assembleLine : AsmLine → Option (List Word)
  | .init alg => some [encode (.init alg)]
  | .update d => some (assembleUpdate (itemsBytes d))
  | .finalize => some [encode .finalize]
  | .digest => some [encode .digest]
  | .reset => some [encode .reset]
  | .freset => some [encode .freset]
  | .compress d =>
    if (itemsBytes d).length < 65536 then
      some (encode (.compress (itemsBytes d).length) :: packBytes (itemsBytes d))
    else none
  | .readh => some [encode .readh]
  | .word w => some [w]
  | .hash alg d =>
    some (encode (.init alg) :: assembleUpdate (itemsBytes d) ++ [encode .finalize, encode .digest])

end Sys2Proof.Machine
end

