-- ==== Sys2Proof/Machine/AsmText.lean ====
section
/-! DEFINITION. The assembler's text (30_encoding.md R109, R110): one command a line, `;` starts a
comment. What the grammar of R109 does not say (blanks, spelling of numbers) is log entry 12's. -/

namespace Sys2Proof.Machine

/-- The characters after leading blanks. -/
def skipBlanks : List Char → List Char
  | [] => []
  | c :: cs => if c = ' ' ∨ c = '\t' then skipBlanks cs else c :: cs

/-- The characters after a word the text starts with. -/
def afterWord : List Char → List Char → Option (List Char)
  | [], cs => some cs
  | _ :: _, [] => none
  | p :: ps, c :: cs => if p = c then afterWord ps cs else none

/-- The value of a hexadecimal digit. -/
def hexDigit (c : Char) : Option Nat :=
  if 48 ≤ c.toNat ∧ c.toNat ≤ 57 then some (c.toNat - 48)
  else if 65 ≤ c.toNat ∧ c.toNat ≤ 70 then some (c.toNat - 55)
  else if 97 ≤ c.toNat ∧ c.toNat ≤ 102 then some (c.toNat - 87)
  else none

/-- The digits of a base the text starts with, as a number after `acc`, and the rest. -/
def readDigits (base acc : Nat) : List Char → Nat × List Char
  | [] => (acc, [])
  | c :: cs =>
    match hexDigit c with
    | none => (acc, c :: cs)
    | some d => if d < base then readDigits base (acc * base + d) cs else (acc, c :: cs)

/-- A number: at least one digit, decimal, or hexadecimal after 0x. -/
def readNumber (cs : List Char) : Option (Nat × List Char) :=
  let (base, ds) := match afterWord "0x".toList cs with
    | some rest => (16, rest)
    | none => (10, cs)
  let (n, rest) := readDigits base 0 ds
  if rest.length < ds.length then some (n, rest) else none

/-- The bytes of the digit pairs the text starts with, first pair first, and the rest. -/
def readHexPairs : List Char → List Byte × List Char
  | a :: b :: cs =>
    match hexDigit a, hexDigit b with
    | some x, some y =>
      let (d, rest) := readHexPairs cs
      (BitVec.ofNat 8 (16 * x + y) :: d, rest)
    | _, _ => ([], a :: b :: cs)
  | cs => ([], cs)

/-- The ASCII characters up to the closing quote, and the rest after it. -/
def readText : List Char → Option (List Char × List Char)
  | [] => none
  | c :: cs =>
    if c = '"' then some ([], cs)
    else if 128 ≤ c.toNat then none
    else
      match readText cs with
      | none => none
      | some (t, rest) => some (c :: t, rest)

/-- A closing parenthesis, after blanks. -/
def closeParen (item : ByteItem) (cs : List Char) : Option (ByteItem × List Char) :=
  match skipBlanks cs with
  | ')' :: rest => some (item, rest)
  | _ => none

/-- `zeros(<n>)`, from after its opening parenthesis. -/
def readZeros (cs : List Char) : Option (ByteItem × List Char) :=
  match readNumber (skipBlanks cs) with
  | none => none
  | some (n, rest) => closeParen (.zeros n) rest

/-- `bytes(<v>, <n>)`, from after its opening parenthesis; v is one byte. -/
def readRepeat (cs : List Char) : Option (ByteItem × List Char) :=
  match readNumber (skipBlanks cs) with
  | none => none
  | some (v, rest) =>
    match skipBlanks rest with
    | ',' :: rest =>
      match readNumber (skipBlanks rest) with
      | none => none
      | some (n, rest) => if v < 256 then closeParen (.bytes (BitVec.ofNat 8 v) n) rest else none
    | _ => none

/-- One <item> of R109, and the rest. -/
def readItem (cs : List Char) : Option (ByteItem × List Char) :=
  match afterWord ['"'] cs with
  | some rest => (readText rest).map fun p => (.text p.1, p.2)
  | none =>
    match afterWord "hex:".toList cs with
    | some rest => some (.hex (readHexPairs rest).1, (readHexPairs rest).2)
    | none =>
      match afterWord "zeros(".toList cs with
      | some rest => readZeros rest
      | none =>
        match afterWord "bytes(".toList cs with
        | some rest => readRepeat rest
        | none => none

/-- Nothing is left on the line but blanks and a comment. -/
def lineEnds (cs : List Char) : Bool :=
  match skipBlanks cs with
  | [] => true
  | c :: _ => decide (c = ';')

/-- <bytes>: items separated by commas up to the end of the line. The first argument bounds the number
of items. -/
def readItems : Nat → List Char → Option (List ByteItem)
  | 0, _ => none
  | n + 1, cs =>
    match readItem (skipBlanks cs) with
    | none => none
    | some (item, rest) =>
      if lineEnds rest then some [item]
      else
        match skipBlanks rest with
        | ',' :: rest => (readItems n rest).map (item :: ·)
        | _ => none

/-- <bytes> of a whole operand field; a line of k characters has at most k items. -/
def readBytes (cs : List Char) : Option (List ByteItem) := readItems (cs.length + 1) cs

/-- `sha1` or `sha256`, and the rest. -/
def readAlg (cs : List Char) : Option (Alg × List Char) :=
  match afterWord "sha1".toList (skipBlanks cs) with
  | some rest => some (.sha1, rest)
  | none =>
    match afterWord "sha256".toList (skipBlanks cs) with
    | some rest => some (.sha256, rest)
    | none => none

/-- The operand of `.word`: 0x and exactly eight hexadecimal digits. -/
def readRawWord (cs : List Char) : Option Word :=
  match afterWord "0x".toList (skipBlanks cs) with
  | none => none
  | some rest =>
    match readHexPairs rest with
    | ([a, b, c, d], rest) => if lineEnds rest then some (be32 a b c d) else none
    | _ => none

/-- The mnemonic a line starts with, up to a blank, a comment or the end, and the rest. -/
def readMnemonic : List Char → List Char × List Char
  | [] => ([], [])
  | c :: cs =>
    if c = ' ' ∨ c = '\t' ∨ c = ';' then ([], c :: cs)
    else (c :: (readMnemonic cs).1, (readMnemonic cs).2)

/-- A command without operands: nothing else stands on its line. -/
def bareLine (line : AsmLine) (rest : List Char) : Option AsmLine :=
  if lineEnds rest then some line else none

/-- `INIT sha1 | sha256`. -/
def initLine (rest : List Char) : Option AsmLine :=
  match readAlg rest with
  | none => none
  | some (alg, rest) => bareLine (.init alg) rest

/-- `HASH sha1|sha256, <bytes>` (R110). -/
def hashLine (rest : List Char) : Option AsmLine :=
  match readAlg rest with
  | none => none
  | some (alg, rest) =>
    match skipBlanks rest with
    | ',' :: rest => (readBytes rest).map (.hash alg)
    | _ => none

/-- The command of a mnemonic and its operand field. -/
def readCommand (mnemonic rest : List Char) : Option AsmLine :=
  if mnemonic = "INIT".toList then initLine rest
  else if mnemonic = "UPDATE".toList then (readBytes rest).map .update
  else if mnemonic = "FINALIZE".toList then bareLine .finalize rest
  else if mnemonic = "DIGEST".toList then bareLine .digest rest
  else if mnemonic = "RESET".toList then bareLine .reset rest
  else if mnemonic = "FRESET".toList then bareLine .freset rest
  else if mnemonic = "COMPRESS".toList then (readBytes rest).map .compress
  else if mnemonic = "READH".toList then bareLine .readh rest
  else if mnemonic = ".word".toList then (readRawWord rest).map .word
  else if mnemonic = "HASH".toList then hashLine rest
  else none

/-- The words of one line of text: none of a blank line, those of its command otherwise; no answer
where the line is not of R109's grammar. -/
def assembleTextLine (cs : List Char) : Option (List Word) :=
  if lineEnds cs then some []
  else
    match readCommand (readMnemonic (skipBlanks cs)).1 (readMnemonic (skipBlanks cs)).2 with
    | none => none
    | some line => assembleLine line

/-- The lines of a text. -/
def textLines : List Char → List (List Char)
  | [] => [[]]
  | c :: cs =>
    if c = '\n' then [] :: textLines cs
    else
      match textLines cs with
      | [] => [[c]]
      | l :: ls => (c :: l) :: ls

/-- The words of all lines, in order. -/
def assembleLines : List (List Char) → Option (List Word)
  | [] => some []
  | l :: ls =>
    match assembleTextLine l, assembleLines ls with
    | some ws, some vs => some (ws ++ vs)
    | _, _ => none

/-- The command stream an assembly program stands for (R109). -/
def assemble (program : String) : Option (List Word) := assembleLines (textLines program.toList)

end Sys2Proof.Machine
end

