-- ==== Sys2Proof/Safety.lean ====
section
/-! DEFINITION. What holds of every state a run from reset reaches, and how a run ends
(10_state.md R30 to R44, 70_reset_and_hazards.md R310). -/

namespace Sys2Proof.Machine

/-- Entries [0..n(MODE)) of a register file written and [n(MODE)..8) ⊥ (R34, R39). -/
def FileHolds (m : Alg) (r : RegFile) : Prop := ∃ w, readFile m r = some w ∧ r = freshFile w

/-- What the spec says of every architectural state. -/
structure Inv (s : State) : Prop where
  /-- BUF[0..BUFLEN) is written and every later entry is ⊥ (R37). -/
  bufWritten : ∀ i : Fin 64, (s.buf[i.val]).isSome = decide (i.val < s.buflen.toNat)
  /-- H is never partially valid: all ⊥, or the n(MODE) words of the algorithm (R34). -/
  hWhole : s.h = RegFile.bottom ∨ FileHolds s.mode s.h
  /-- In ACTIVE H is written (R33, R200). -/
  hActive : s.phase = .active → FileHolds s.mode s.h
  /-- In UNINIT every element holds its value after RST (R33, R48). -/
  uninit : s.phase = .uninit → s.mode = .sha1 ∧ s.h = RegFile.bottom ∧ s.buflen = 0 ∧ s.processed = 0 ∧
    s.fvalid = false ∧ s.out = [] ∧ s.cpos = 0
  /-- FVALID is 1 exactly when F holds a finalized state (R40). -/
  finalHeld : s.fvalid = true → FileHolds s.mode s.f
  /-- F is ⊥ while FVALID is 0 (R39, R40). -/
  finalGone : s.fvalid = false → s.f = RegFile.bottom
  /-- ERR is 0 exactly when PHASE is not HALTED (R41). -/
  errCode : s.err = .none ↔ s.phase ≠ .halted
  /-- OUT holds at most OUT_DEPTH words (R42). -/
  outFits : s.out.length ≤ Config.outDepth
  /-- PROCESSED is a multiple of 64 (R38, log entry 19). -/
  processedBlocks : s.processed.toNat % 64 = 0
  /-- While RST is asserted the engine is in its reset state with an empty command stream (R301). -/
  rstHeld : s.rst = true → s.phase = .uninit ∧ s.cmd = []

/-- absorb_byte(x), the one-byte step R207 compares absorb with. -/
def State.absorbByte (x : Byte) (s : State) : Except Abort State :=
  if s.buflen.toNat + 1 < 64 then .ok (s.appendBuf [x])
  else
    match s.unprocessed with
    | none => .error .bottom
    | some r =>
      match s.compressBlock (r ++ [x]) with
      | .error e => .error e
      | .ok t => .ok (t.refillBuf [])

/-- absorb_byte applied to each byte in order (R207). -/
def State.absorbBytewise (s : State) : List Byte → Except Abort State
  | [] => .ok s
  | x :: xs =>
    match s.absorbByte x with
    | .error e => .error e
    | .ok t => t.absorbBytewise xs

/-- No word of a later command is in the stream: behind the word at cpos stand at most the payload words
its command takes (R78, R83). -/
def StreamHolds (s : State) : Prop :=
  ∀ w rest, s.cmd = w :: rest →
    rest = [] ∨ (s.phase = .active ∧ ∃ i, decode w = .ok i ∧ rest.length ≤ payloadCount i)

/-- cpos = |C| and no command is waiting: no word is left to consume and none is still to be written
(R310). R310 says nothing of words written after the end. DESIGN CHOICE (log entry 22): every write left in
the host's list counts as still to be written, those behind a later RST too, so that a run whose host goes on
to RST and a second stream does not count as ended. -/
def RunEnded (s : State) : Prop := s.cmd = [] ∧ ∀ m ∈ s.host, writesCmd m = false

/-- A run ends successfully only in ACTIVE (R310). -/
def EndsSuccessfully (s : State) : Prop := RunEnded s ∧ s.phase = .active

/-- A run that reaches HALTED ends in a fault, whatever follows (R274, R310). -/
def EndsInFault (s : State) : Prop := s.phase = .halted

/-- The command at cpos is not enabled: missing payload (R278) or no room in OUT (R286). -/
def CommandWaits (s : State) : Prop :=
  ∃ w rest i, s.cmd = w :: rest ∧ decode w = .ok i ∧ waits i s = true

/-- The host's next access is a write that the CMD port holds (R83). -/
def HostBlocked (s : State) : Prop := s.writeHeld = true ∧ ∃ m rest, s.host = m :: rest ∧ writesCmd m = true

/-- The host asserts RST on its turn: it is its next access, or its next access is a held write and an RST
stands behind it (R286, R311). -/
def AssertsRst (s : State) : Prop :=
  s.host.head? = some .assertRst ∨ (HostBlocked s ∧ .assertRst ∈ s.host)

/-- The engine waits and the host has nothing more to do, or its next access is a held write and it asserts
no RST: a stuck run, never a finished one (R83, R278, R286, R310). -/
def StuckRun (s : State) : Prop :=
  CommandWaits s ∧ (s.host = [] ∨ (HostBlocked s ∧ .assertRst ∉ s.host))

end Sys2Proof.Machine
end

