-- ==== Sys2Proof/Certificates/Slice0/Obligations.lean ====
section
/-! DEFINITION. The statements for the provers. Each docstring names the rule of spec/ it formalises. -/

open Sys2Proof Sys2Proof.Machine

/-! ### Encoding (30_encoding.md) -/

/-- R101 to R103: the decoder gives back every well-formed command from its command word, with each
operand at every value its field admits. -/
def Obligations.EncodedCommandsDecodeBack : Prop :=
  ∀ i : Instr, wellFormed i = true → decode (encode i) = .ok i

/-- R106, last paragraph: a word that is not illegal is exactly one command's word. -/
def Obligations.DecodedWordsEncodeBack : Prop :=
  ∀ (w : Word) (i : Instr), decode w = .ok i → encode i = w ∧ wellFormed i = true

/-- R103: the match and mask table, one line a row, with the free fields; a word of no row is illegal. -/
def Obligations.MatchAndMaskSelectTheCommand : Prop :=
  ∀ w : Word,
    (w &&& 0xFFFEFFFF = 0x01000000 ↔
      decode w = .ok (.init (if w.getLsbD 16 then .sha256 else .sha1))) ∧
    (w &&& 0xFFFF0000 = 0x02000000 ↔ decode w = .ok (.update (w.extractLsb' 0 16).toNat)) ∧
    (w &&& 0xFFFFFFFF = 0x03000000 ↔ decode w = .ok .finalize) ∧
    (w &&& 0xFFFFFFFF = 0x04000000 ↔ decode w = .ok .digest) ∧
    (w &&& 0xFFFFFFFF = 0x05000000 ↔ decode w = .ok .reset) ∧
    (w &&& 0xFFFFFFFF = 0x06000000 ↔ decode w = .ok .freset) ∧
    (w &&& 0xFFFF0000 = 0x07000000 ↔ decode w = .ok (.compress (w.extractLsb' 0 16).toNat)) ∧
    (w &&& 0xFFFFFFFF = 0x08000000 ↔ decode w = .ok .readh) ∧
    (w &&& 0xFFFEFFFF ≠ 0x01000000 → w &&& 0xFFFF0000 ≠ 0x02000000 → w &&& 0xFFFFFFFF ≠ 0x03000000 →
      w &&& 0xFFFFFFFF ≠ 0x04000000 → w &&& 0xFFFFFFFF ≠ 0x05000000 → w &&& 0xFFFFFFFF ≠ 0x06000000 →
      w &&& 0xFFFF0000 ≠ 0x07000000 → w &&& 0xFFFFFFFF ≠ 0x08000000 → ∃ e, decode w = .error e)

/-- R106: a word is illegal exactly when (a), (b), (c) or (d) holds; in UNINIT and ACTIVE an illegal
word takes Fault(ILLEGAL); COMPRESS with LEN other than 64 is a legal encoding that takes
Fault(BLOCK_SIZE) when executed. -/
def Obligations.IllegalWordsAndTheirFault : Prop :=
  (∀ w : Word, (∃ e, decode w = .error e) ↔
    (w.extractLsb' 24 8 = 0x00 ∨ 0x09 ≤ (w.extractLsb' 24 8).toNat) ∨
    w.extractLsb' 17 7 ≠ 0 ∨
    (w.getLsbD 16 = true ∧ w.extractLsb' 24 8 ≠ 0x01) ∨
    (w.extractLsb' 0 16 ≠ 0 ∧ w.extractLsb' 24 8 ≠ 0x02 ∧ w.extractLsb' 24 8 ≠ 0x07)) ∧
  (∀ (s : State) (w : Word) (rest : List Word) (e : Illegal),
    s.rst = false → s.host.head? ≠ some .assertRst → s.cmd = w :: rest → s.phase ≠ .halted →
    decode w = .error e →
    step s = .next { s with err := .illegal, phase := .halted, cpos := s.cpos + 1, cmd := rest }) ∧
  (∀ (s : State) (len : Nat), len < 65536 → len ≠ 64 → s.phase = .active →
    decode (encode (.compress len)) = .ok (.compress len) ∧
    exec (.compress len) s =
      .next { s with err := .blockSize, phase := .halted, cpos := s.cpos + 1, cmd := s.cmd.drop 1 })

/-- R108, R276: the checks are made in the order opcode, RSV, ALG, LEN, and the first that holds
decides; a malformed word in UNINIT is ILLEGAL, not NOT_INIT. -/
def Obligations.ChecksAreMadeInOrder : Prop :=
  (∀ w : Word, decode w = .error .opcode ↔
    (w.extractLsb' 24 8 = 0x00 ∨ 0x09 ≤ (w.extractLsb' 24 8).toNat)) ∧
  (∀ w : Word, decode w = .error .reserved ↔
    1 ≤ (w.extractLsb' 24 8).toNat ∧ (w.extractLsb' 24 8).toNat ≤ 8 ∧ w.extractLsb' 17 7 ≠ 0) ∧
  (∀ w : Word, decode w = .error .algorithm ↔
    2 ≤ (w.extractLsb' 24 8).toNat ∧ (w.extractLsb' 24 8).toNat ≤ 8 ∧ w.extractLsb' 17 7 = 0 ∧
      w.getLsbD 16 = true) ∧
  (∀ w : Word, decode w = .error .length ↔
    ((w.extractLsb' 24 8 = 0x01 ∧ w.extractLsb' 17 7 = 0) ∨
      (3 ≤ (w.extractLsb' 24 8).toNat ∧ (w.extractLsb' 24 8).toNat ≤ 8 ∧ w.extractLsb' 24 8 ≠ 0x07 ∧
        w.extractLsb' 17 7 = 0 ∧ w.getLsbD 16 = false)) ∧ w.extractLsb' 0 16 ≠ 0) ∧
  (∀ (s : State) (w : Word) (rest : List Word) (e : Illegal),
    s.rst = false → s.host.head? ≠ some .assertRst → s.cmd = w :: rest → s.phase = .uninit →
    decode w = .error e → ∃ t, step s = .next t ∧ t.err = .illegal)

/-- R111: command words written out from the spec's examples. -/
def Obligations.ExampleWordsDecode : Prop :=
  decode 0x01000000 = .ok (.init .sha1) ∧ decode 0x01010000 = .ok (.init .sha256) ∧
  decode 0x02000003 = .ok (.update 3) ∧ decode 0x03000000 = .ok .finalize ∧
  decode 0x04000000 = .ok .digest ∧ decode 0x05000000 = .ok .reset ∧
  decode 0x06000000 = .ok .freset ∧ decode 0x07000040 = .ok (.compress 64) ∧
  decode 0x08000000 = .ok .readh ∧
  decode 0x01020000 = .error .reserved ∧ decode 0x03010000 = .error .algorithm ∧
  decode 0x04000001 = .error .length ∧ decode 0x00000000 = .error .opcode

/-- R108: where a command stands at cpos and it is the engine's turn, the step is exec of it; a command
that is not enabled changes nothing, and the step is the host's. -/
def Obligations.StepRunsTheCommandAtCpos : Prop :=
  ∀ (s : State) (w : Word) (rest : List Word) (i : Instr),
    s.rst = false → s.host.head? ≠ some .assertRst → s.cmd = w :: rest → decode w = .ok i →
    (waits i s = false → step s = exec i s) ∧
    (waits i s = true → exec i s = .next s ∧ step s = hostStep s)

/-- R100: the length of each command, and that a command which completes consumes exactly its words,
one that faults only its command word. -/
def Obligations.CommandsConsumeTheirLength : Prop :=
  (∀ alg, commandLength (.init alg) = 1) ∧ (∀ n, commandLength (.update n) = 1 + (n + 3) / 4) ∧
  commandLength .finalize = 1 ∧ commandLength .digest = 1 ∧ commandLength .reset = 1 ∧
  commandLength .freset = 1 ∧ commandLength .readh = 1 ∧ commandLength (.compress 64) = 17 ∧
  (∀ (i : Instr) (s t : State), s.phase ≠ .halted → waits i s = false → exec i s = .next t →
    (t.phase = .active → t.cpos = s.cpos + commandLength i ∧ t.cmd = s.cmd.drop (commandLength i)) ∧
    (t.phase = .halted → t.cpos = s.cpos + 1 ∧ t.cmd = s.cmd.drop 1))

/-- R104: In(k), which answers once its words are there, and bytes(P, N): byte i is bits [31 - 8·(i mod 4) : 24 - 8·(i mod 4)] of word i div 4,
and the bytes after the N-th are ignored. -/
def Obligations.PayloadBytesAreBigEndian : Prop :=
  (∀ (s : State) (k : Nat) (p : List Word), s.payload k = some p →
    p.length = k ∧ ∀ j, j < k → p[j]? = s.cmd[j + 1]?) ∧
  (∀ (s : State) (k : Nat), k + 1 ≤ s.cmd.length → s.payload k = some ((s.cmd.drop 1).take k)) ∧
  (∀ (p : List Word) (n : Nat), p.length = (n + 3) / 4 →
    (payloadBytes p n).length = n ∧
    ∀ (i : Nat) (x : Word), i < n → p[i / 4]? = some x →
      (payloadBytes p n)[i]? = some (x.extractLsb' (24 - 8 * (i % 4)) 8))

/-- R109: the packed payload words carry exactly the byte string, for every length. -/
def Obligations.PackedPayloadReadsBack : Prop :=
  ∀ d : List Byte, (packBytes d).length = (d.length + 3) / 4 ∧ payloadBytes (packBytes d) d.length = d

/-- R110: an UPDATE line stands for the UPDATE commands, each with its payload, of consecutive pieces of
its byte string: pieces of 65535 bytes, then one with the remaining bytes, which is omitted if there are
none; a line without a byte is one UPDATE of LEN 0. A HASH line stands for INIT, that expansion, FINALIZE
and DIGEST. -/
def Obligations.UpdateLineExpandsInOrder : Prop :=
  (∀ d : List Byte, ∃ pieces : List (List Byte),
    assembleUpdate d = pieces.flatMap (fun x => encode (.update x.length) :: packBytes x) ∧
    pieces.flatten = d ∧
    (∀ (k : Nat) (x : List Byte), pieces[k]? = some x →
      x = (d.drop (65535 * k)).take 65535 ∧ wellFormed (.update x.length) = true ∧
      (k + 1 < pieces.length → x.length = 65535) ∧ (d ≠ [] → x ≠ [])) ∧
    (d = [] → pieces = [[]]) ∧
    (d ≠ [] → pieces.length = (d.length + 65534) / 65535)) ∧
  (∀ items : List ByteItem, assembleLine (.update items) = some (assembleUpdate (itemsBytes items))) ∧
  (∀ (alg : Alg) (items : List ByteItem),
    assembleLine (.hash alg items) =
      some ([encode (.init alg)] ++ assembleUpdate (itemsBytes items) ++ [0x03000000, 0x04000000]))

/-- R109, R110, R111: the source lines of the spec's examples and of its programs P1 and P4 assemble to
the words the spec gives. -/
def Obligations.ExampleLinesAssemble : Prop :=
  assemble "INIT sha1" = some [0x01000000] ∧ assemble "INIT sha256" = some [0x01010000] ∧
  assemble "UPDATE \"abc\"" = some [0x02000003, 0x61626300] ∧
  assemble "UPDATE \"\"" = some [0x02000000] ∧
  assemble "UPDATE \"Hello\"" = some [0x02000005, 0x48656C6C, 0x6F000000] ∧
  assemble "UPDATE zeros(64)" = some (0x02000040 :: List.replicate 16 0) ∧
  assemble "FINALIZE" = some [0x03000000] ∧ assemble "DIGEST" = some [0x04000000] ∧
  assemble "RESET" = some [0x05000000] ∧ assemble "FRESET" = some [0x06000000] ∧
  assemble "COMPRESS zeros(64)" = some (0x07000040 :: List.replicate 16 0) ∧
  assemble "READH" = some [0x08000000] ∧
  assemble ".word 0x01020000" = some [0x01020000] ∧ assemble ".word 0x03010000" = some [0x03010000] ∧
  assemble ".word 0x04000001" = some [0x04000001] ∧ assemble ".word 0x00000000" = some [0x00000000] ∧
  assemble "COMPRESS hex:61626380, zeros(59), hex:18" =
    some ([0x07000040, 0x61626380] ++ List.replicate 14 0 ++ [0x00000018]) ∧
  assemble "HASH sha1, \"abc\"" = some [0x01000000, 0x02000003, 0x61626300, 0x03000000, 0x04000000]

/-! ### State and STATUS (10_state.md) -/

/-- R48: the state after RST. -/
def Obligations.ResetLeavesTheSpecifiedState : Prop :=
  State.reset.phase = .uninit ∧ State.reset.mode = .sha1 ∧
  State.reset.h = ⟨none, none, none, none, none, none, none, none⟩ ∧
  (∀ i : Fin 64, State.reset.buf[i.val] = none) ∧ State.reset.buflen = 0 ∧
  State.reset.processed = 0 ∧
  State.reset.f = ⟨none, none, none, none, none, none, none, none⟩ ∧ State.reset.fvalid = false ∧
  State.reset.err = .none ∧ State.reset.out = [] ∧ State.reset.cpos = 0 ∧
  State.reset.status = 0x00000000

/-- R43: the fields of STATUS, with the codes of R271 in ERR, its formula, and that a read of it has no side effect on the engine.
The premise is what R42 says of OUT (at most 255 words), part of the invariant. -/
def Obligations.StatusLayout : Prop :=
  ∀ s : State, s.out.length ≤ 255 →
    s.status.getLsbD 0 = decide (s.phase = .active) ∧
    s.status.getLsbD 1 = decide (s.mode = .sha256) ∧
    s.status.getLsbD 2 = s.fvalid ∧
    s.status.getLsbD 3 = decide (s.phase = .halted) ∧
    s.status.extractLsb' 4 4 =
      (match s.err with
        | .none => 0 | .illegal => 1 | .notInit => 2 | .blockSize => 3 | .noResult => 4 : BitVec 4) ∧
    s.status.extractLsb' 8 6 = s.buflen ∧
    s.status.extractLsb' 14 2 = 0 ∧
    (s.status.extractLsb' 16 8).toNat = s.out.length ∧
    s.status.extractLsb' 24 8 = 0 ∧
    hostMove .readStatus s = .next { s with statusReads := s.statusReads ++ [s.status] } ∧
    State.reset.status = 0

/-- R30 to R42: the reset state meets the invariant. -/
def Obligations.InvariantHoldsAtReset : Prop := Inv State.reset

/-- R34, R37 to R42, R301: every step keeps the invariant, from every state that meets it. -/
def Obligations.EveryStepKeepsTheInvariant : Prop :=
  ∀ s t : State, Inv s → step s = .next t → Inv t

/-- R31: no step of a state that meets the invariant reads an entry that holds ⊥. -/
def Obligations.NoStepReadsBottom : Prop :=
  ∀ (s : State) (r : Fault), Inv s → step s ≠ .fault r

/-- R31: a command that reaches a read of ⊥ faults, and gives no value. -/
def Obligations.ReadOfBottomFaults : Prop :=
  ∀ s : State, s.phase = .active →
    (readFile s.mode s.h = none → exec .finalize s = .fault .unwrittenRead) ∧
    (s.unprocessed = none → exec .finalize s = .fault .unwrittenRead) ∧
    (readFile s.mode s.h = none → s.hasRoom = true → exec .readh s = .fault .unwrittenRead) ∧
    (readFile s.mode s.f = none → s.fvalid = true → s.hasRoom = true →
      exec .digest s = .fault .unwrittenRead) ∧
    (∀ p, readFile s.mode s.h = none → s.payload 16 = some p →
      exec (.compress 64) s = .fault .unwrittenRead) ∧
    (∀ len p, s.payload (wordsForBytes len) = some p → 64 ≤ s.buflen.toNat + len →
      (readFile s.mode s.h = none ∨ (s.buflen ≠ 0 ∧ s.unprocessed = none)) →
      exec (.update len) s = .fault .unwrittenRead)

/-- R33: the phases. -/
def Obligations.PhaseLifecycle : Prop :=
  State.reset.phase = .uninit ∧
  (∀ (alg : Alg) (s : State), s.phase ≠ .halted → ∃ t, exec (.init alg) s = .next t ∧ t.phase = .active) ∧
  (∀ (c : ErrCode) (s : State), (s.raiseFault c).phase = .halted) ∧
  (∀ s t : State, s.phase = .halted → step s = .next t → t.phase ≠ .halted →
    s.host.head? = some .assertRst) ∧
  (∀ (i : Instr) (s : State), (∀ alg, i ≠ .init alg) → s.phase = .uninit →
    exec i s =
      .next { s with err := .notInit, phase := .halted, cpos := s.cpos + 1, cmd := s.cmd.drop 1 }) ∧
  (∀ (s : State) (w : Word) (rest : List Word), s.rst = false → s.host.head? ≠ some .assertRst →
    s.cmd = w :: rest → s.phase = .halted → step s = .next { s with cpos := s.cpos + 1, cmd := rest }) ∧
  (∀ s : State, s.status.getLsbD 0 = true ↔ s.phase = .active) ∧
  (∀ s : State, s.status.getLsbD 3 = true ↔ s.phase = .halted)

/-- R32: MODE is written only by INIT, from its ALG field, and by RST. -/
def Obligations.ModeWrittenOnlyByInitAndRst : Prop :=
  ∀ s t : State, step s = .next t → t.mode ≠ s.mode →
    (∃ alg, turn s = .command (.init alg) ∧ t.mode = alg) ∨
    (AssertsRst s ∧ t.mode = .sha1)

/-- R34: H is written by INIT, RESET, FRESET, UPDATE and COMPRESS and by RST, by no other step. -/
def Obligations.StateFileWriters : Prop :=
  ∀ s t : State, step s = .next t → t.h ≠ s.h →
    (∃ alg, turn s = .command (.init alg)) ∨ turn s = .command .reset ∨ turn s = .command .freset ∨
    (∃ n, turn s = .command (.update n)) ∨ turn s = .command (.compress 64) ∨
    AssertsRst s

/-- R39, R40: F and FVALID are written by FINALIZE, INIT, FRESET and RST, by no other step; FINALIZE
sets FVALID and the others clear it. -/
def Obligations.DigestFileWriters : Prop :=
  ∀ s t : State, step s = .next t → (t.f ≠ s.f ∨ t.fvalid ≠ s.fvalid) →
    (turn s = .command .finalize ∧ t.fvalid = true) ∨
    (((∃ alg, turn s = .command (.init alg)) ∨ turn s = .command .freset ∨
      AssertsRst s) ∧ t.f = RegFile.bottom ∧ t.fvalid = false)

/-- R41: ERR is written only by a fault, which moves PHASE to HALTED, and by RST. -/
def Obligations.ErrWrittenOnlyByFaultAndRst : Prop :=
  ∀ s t : State, step s = .next t → t.err ≠ s.err →
    (s.phase ≠ .halted ∧ t.phase = .halted ∧ t = s.raiseFault t.err) ∨
    (AssertsRst s ∧ t.err = .none)

/-- R42: words enter OUT at its tail by DIGEST and READH only and leave at its head by a read of DOUT
only, at its port or at its location on the bus (R75); RST empties it; no other step changes it. -/
def Obligations.OutQueueWriters : Prop :=
  ∀ s t : State, step s = .next t → t.out ≠ s.out →
    (turn s = .command .digest ∧
      ∃ w, readFile s.mode s.f = some w ∧ t.out = s.out ++ stateWordList w) ∨
    (turn s = .command .readh ∧
      ∃ w, readFile s.mode s.h = some w ∧ t.out = s.out ++ stateWordList w) ∨
    (turn s = .host ∧
      (s.host.head? = some .readDout ∨ s.host.head? = some (.busRead (Config.engineBase + 4) 4)) ∧
      ∃ x, s.out = x :: t.out ∧ t.doutReads = s.doutReads ++ [x]) ∨
    (AssertsRst s ∧ t.out = [])

/-- R44, R83, R100: but for RST, a step either consumes the words of the command that completes, or the one
word of a fault or a discard, or appends the word of the host's write at the end, or leaves the stream and
cpos alone, and then the host has not made a write, or has made it with RST asserted, which discards it. -/
def Obligations.CommandStreamIsConsumedInOrder : Prop :=
  ∀ s t : State, step s = .next t → ¬ AssertsRst s →
    (∃ i, turn s = .command i ∧ t.phase = .active ∧ commandLength i ≤ s.cmd.length ∧
      t.cpos = s.cpos + commandLength i ∧ t.cmd = s.cmd.drop (commandLength i) ∧ t.host = s.host) ∨
    ((turn s = .discard ∨ turn s = .illegal ∨ ∃ i, turn s = .command i) ∧ t.phase = .halted ∧
      1 ≤ s.cmd.length ∧ t.cpos = s.cpos + 1 ∧ t.cmd = s.cmd.drop 1 ∧ t.host = s.host) ∨
    (∃ m w rest, turn s = .host ∧ s.rst = false ∧ s.host = m :: rest ∧
      (m = .writeCmd w ∨ m = .busWrite Config.engineBase 4 w) ∧
      t.host = rest ∧ t.cpos = s.cpos ∧ t.cmd = s.cmd ++ [w]) ∨
    (turn s = .host ∧ t.cpos = s.cpos ∧ t.cmd = s.cmd ∧
      (t.host = s.host ∨ ∃ m rest, s.host = m :: rest ∧ t.host = rest ∧
        (writesCmd m = false ∨ s.rst = true)))

/-! ### Compression (40_compression.md) -/

/-- R140, R141: a block forms from a byte string of 64 bytes and from no other, holds exactly those bytes,
and its words are big-endian, in original order. -/
def Obligations.BlockWordsAreBigEndian : Prop :=
  (∀ d : List Byte, (formBlock d).isSome = true ↔ d.length = 64) ∧
  (∀ (d : List Byte) (b : Block), formBlock d = some b → b.bytes = d) ∧
  (∀ (b : Block) (j : Fin 16),
    ((blockWords b)[j.val]).toNat =
      (b.bytes.getD (4 * j.val) 0).toNat * 2 ^ 24 + (b.bytes.getD (4 * j.val + 1) 0).toNat * 2 ^ 16 +
      (b.bytes.getD (4 * j.val + 2) 0).toNat * 2 ^ 8 + (b.bytes.getD (4 * j.val + 3) 0).toNat)

/-- R151: the SHA-1 message schedule. -/
def Obligations.Sha1ScheduleRecurrence : Prop :=
  ∀ m : Vector Word 16,
    (scheduleSha1 m).length = 80 ∧
    (∀ t : Fin 16, (scheduleSha1 m)[t.val]? = some m[t.val]) ∧
    (∀ (t : Nat) (a b c d : Word), 16 ≤ t → t < 80 →
      (scheduleSha1 m)[t - 3]? = some a → (scheduleSha1 m)[t - 8]? = some b →
      (scheduleSha1 m)[t - 14]? = some c → (scheduleSha1 m)[t - 16]? = some d →
      (scheduleSha1 m)[t]? = some (((a ^^^ b ^^^ c ^^^ d) <<< 1) ||| ((a ^^^ b ^^^ c ^^^ d) >>> 31)))

/-- R172: the SHA-256 message schedule, with the two schedule sigmas of R171 written out. -/
def Obligations.Sha256ScheduleRecurrence : Prop :=
  ∀ m : Vector Word 16,
    (scheduleSha256 m).length = 64 ∧
    (∀ t : Fin 16, (scheduleSha256 m)[t.val]? = some m[t.val]) ∧
    (∀ (t : Nat) (a b c d : Word), 16 ≤ t → t < 64 →
      (scheduleSha256 m)[t - 2]? = some a → (scheduleSha256 m)[t - 7]? = some b →
      (scheduleSha256 m)[t - 15]? = some c → (scheduleSha256 m)[t - 16]? = some d →
      (scheduleSha256 m)[t]? =
        some ((rotr a 17 ^^^ rotr a 19 ^^^ (a >>> 10)) + b + (rotr c 7 ^^^ rotr c 18 ^^^ (c >>> 3)) + d))

/-- R150, R152 to R155: compress_SHA1 is the feed-forward of any sequence of working variables that
starts at S and follows the round of each t = 0 .. 79 with the function, constant and schedule word of
that t. -/
def Obligations.Sha1CompressionFollowsTheRounds : Prop :=
  ∀ (s : Sha1Vars) (b : Block) (v : Nat → Sha1Vars),
    v 0 = s →
    (∀ (t : Nat) (w : Word), t < 80 → (scheduleSha1 (blockWords b))[t]? = some w →
      let f : Word :=
        if t ≤ 19 then ((v t).b &&& (v t).c) ^^^ (~~~(v t).b &&& (v t).d)
        else if t ≤ 39 then (v t).b ^^^ (v t).c ^^^ (v t).d
        else if t ≤ 59 then ((v t).b &&& (v t).c) ^^^ ((v t).b &&& (v t).d) ^^^ ((v t).c &&& (v t).d)
        else (v t).b ^^^ (v t).c ^^^ (v t).d
      let k : Word :=
        if t ≤ 19 then 0x5A827999 else if t ≤ 39 then 0x6ED9EBA1 else if t ≤ 59 then 0x8F1BBCDC
        else 0xCA62C1D6
      v (t + 1) =
        ⟨rotl (v t).a 5 + f + (v t).e + k + w, (v t).a, rotl (v t).b 30, (v t).c, (v t).d⟩) →
    compressSha1 s b =
      ⟨s.a + (v 80).a, s.b + (v 80).b, s.c + (v 80).c, s.d + (v 80).d, s.e + (v 80).e⟩

/-- R170, R174, R175: compress_SHA256 is the feed-forward of any sequence of working variables that
starts at S and follows the round of each t = 0 .. 63 with the constant and schedule word of that t. -/
def Obligations.Sha256CompressionFollowsTheRounds : Prop :=
  ∀ (s : Sha256Vars) (b : Block) (v : Nat → Sha256Vars),
    v 0 = s →
    (∀ (t : Nat) (k w : Word), t < 64 → sha256K[t]? = some k →
      (scheduleSha256 (blockWords b))[t]? = some w →
      let T1 := (v t).h + (rotr (v t).e 6 ^^^ rotr (v t).e 11 ^^^ rotr (v t).e 25) +
        (((v t).e &&& (v t).f) ^^^ (~~~(v t).e &&& (v t).g)) + k + w
      let T2 := (rotr (v t).a 2 ^^^ rotr (v t).a 13 ^^^ rotr (v t).a 22) +
        (((v t).a &&& (v t).b) ^^^ ((v t).a &&& (v t).c) ^^^ ((v t).b &&& (v t).c))
      v (t + 1) =
        ⟨T1 + T2, (v t).a, (v t).b, (v t).c, (v t).d + T1, (v t).e, (v t).f, (v t).g⟩) →
    compressSha256 s b =
      ⟨s.a + (v 64).a, s.b + (v 64).b, s.c + (v 64).c, s.d + (v 64).d, s.e + (v 64).e,
        s.f + (v 64).f, s.g + (v 64).g, s.h + (v 64).h⟩

/-- R156, R176: the corner cases of both compressions: wrapping addition, the sigmas of 0xFFFFFFFF, an
all-zero schedule whose block does not compress to the initialization constants, and the working variables
after round 0 of the padded block of "abc" and its compression from them. -/
def Obligations.PaddedAbcCompresses : Prop :=
  scheduleSha1 (Vector.replicate 16 0) = List.replicate 80 0 ∧
  scheduleSha256 (Vector.replicate 16 0) = List.replicate 64 0 ∧
  roundSha1 0 ⟨0x67452301, 0xEFCDAB89, 0x98BADCFE, 0x10325476, 0xC3D2E1F0⟩ 0x61626380 =
    ⟨0x0116FC33, 0x67452301, 0x7BF36AE2, 0x98BADCFE, 0x10325476⟩ ∧
  (0xFFFFFFFF : Word) + 1 = 0x00000000 ∧
  compressBytes (initialWords .sha1) (List.replicate 64 0) ≠ .ok (initialWords .sha1) ∧
  smallSigma0 0xFFFFFFFF = 0x1FFFFFFF ∧ smallSigma1 0xFFFFFFFF = 0x003FFFFF ∧
  bigSigma0 0xFFFFFFFF = 0xFFFFFFFF ∧ bigSigma1 0xFFFFFFFF = 0xFFFFFFFF ∧
  sha256K[0]? = some 0x428A2F98 ∧
  roundSha256 ⟨0x6A09E667, 0xBB67AE85, 0x3C6EF372, 0xA54FF53A, 0x510E527F, 0x9B05688C, 0x1F83D9AB,
      0x5BE0CD19⟩ 0x428A2F98 0x61626380 =
    ⟨0x5D6AEBCD, 0x6A09E667, 0xBB67AE85, 0x3C6EF372, 0xFA2A4622, 0x510E527F, 0x9B05688C, 0x1F83D9AB⟩ ∧
  compressBytes (initialWords .sha1) (payloadBytes (0x61626380 :: List.replicate 14 0 ++ [0x00000018]) 64) =
    .ok (.sha1 ⟨0xA9993E36, 0x4706816A, 0xBA3E2571, 0x7850C26C, 0x9CD0D89D⟩) ∧
  compressBytes (initialWords .sha256) (payloadBytes (0x61626380 :: List.replicate 14 0 ++ [0x00000018]) 64) =
    .ok (.sha256 ⟨0xBA7816BF, 0x8F01CFEA, 0x414140DE, 0x5DAE2223, 0xB00361A3, 0x96177A9C, 0xB410FF61,
      0xF20015AD⟩)

/-- R9: rotations are circular: bit i of the operand becomes bit (i + k) mod 32 of ROTL^k and bit
(i - k) mod 32 of ROTR^k, and addition is modulo 2^32. -/
def Obligations.RotationsAreCircular : Prop :=
  ∀ (x y : Word) (k i : Nat), 0 < k → k < 32 → i < 32 →
    (rotl x k).getLsbD ((i + k) % 32) = x.getLsbD i ∧
    (rotr x k).getLsbD ((i + 32 - k) % 32) = x.getLsbD i ∧
    (shr x k).getLsbD i = x.getLsbD (i + k) ∧
    (x + y).toNat = (x.toNat + y.toNat) % 2 ^ 32

/-- R180: COMPRESS. With LEN 64 in ACTIVE it completes: the block of the 16 payload words is compressed
into the n(MODE) entries of H, and every other element but cpos and the command stream keeps its value.
With another LEN it takes BLOCK_SIZE, consuming the command word only; in UNINIT it takes NOT_INIT. -/
def Obligations.CompressResult : Prop :=
  encode (.compress 64) = 0x07000040 ∧
  (∀ (s : State) (p : List Word) (w : StateWords),
    s.phase = .active → s.payload 16 = some p → readFile s.mode s.h = some w →
    ∃ b : Block, b.bytes = p.flatMap be32Bytes ∧
      exec (.compress 64) s =
        .next { s with h := writeFile (compress w b) s.h, cpos := s.cpos + 17, cmd := s.cmd.drop 17 }) ∧
  (∀ (s : State) (len : Nat), s.phase = .active → len ≠ 64 →
    exec (.compress len) s =
      .next { s with err := .blockSize, phase := .halted, cpos := s.cpos + 1, cmd := s.cmd.drop 1 }) ∧
  (∀ (s : State) (len : Nat), s.phase = .uninit →
    exec (.compress len) s =
      .next { s with err := .notInit, phase := .halted, cpos := s.cpos + 1, cmd := s.cmd.drop 1 })


/-- R141, R277: UPDATE and FINALIZE never form a block of a length other than 64, in any state; only
COMPRESS with LEN other than 64 raises BLOCK_SIZE. -/
def Obligations.OnlyCompressRaisesBlockSize : Prop :=
  ∀ (i : Instr) (s t : State), exec i s = .next t → s.err ≠ .blockSize → t.err = .blockSize →
    ∃ len, i = .compress len ∧ len ≠ 64

/-- R185: READH. In ACTIVE it completes where its words fit in OUT: H0..H4 or H0..H7, H0 first, at
the tail of OUT, and nothing else changes; while they do not fit it is held; in UNINIT it takes NOT_INIT. -/
def Obligations.ReadhResult : Prop :=
  encode .readh = 0x08000000 ∧
  (∀ (s : State) (a b c d e : Word), s.phase = .active → s.mode = .sha1 →
    s.out.length + 5 ≤ Config.outDepth →
    s.h.e0 = some a → s.h.e1 = some b → s.h.e2 = some c → s.h.e3 = some d → s.h.e4 = some e →
    exec .readh s =
      .next { s with out := s.out ++ [a, b, c, d, e], cpos := s.cpos + 1, cmd := s.cmd.drop 1 }) ∧
  (∀ (s : State) (a b c d e f g h : Word), s.phase = .active → s.mode = .sha256 →
    s.out.length + 8 ≤ Config.outDepth →
    s.h.e0 = some a → s.h.e1 = some b → s.h.e2 = some c → s.h.e3 = some d →
    s.h.e4 = some e → s.h.e5 = some f → s.h.e6 = some g → s.h.e7 = some h →
    exec .readh s =
      .next { s with out := s.out ++ [a, b, c, d, e, f, g, h], cpos := s.cpos + 1, cmd := s.cmd.drop 1 }) ∧
  (∀ s : State, s.phase = .active → Config.outDepth < s.out.length + (match s.mode with | .sha1 => 5 | .sha256 => 8) →
    waits .readh s = true ∧ exec .readh s = .next s) ∧
  (∀ s : State, s.phase = .uninit →
    exec .readh s =
      .next { s with err := .notInit, phase := .halted, cpos := s.cpos + 1, cmd := s.cmd.drop 1 })


/-! ### The accumulator (41_update.md) -/

/-- R200, R35, R36: INIT in UNINIT or ACTIVE, with the initialization constants written out; OUT and ERR
keep their values; in HALTED it is discarded. It is the one command accepted in UNINIT: every other one takes
NOT_INIT. -/
def Obligations.InitResult : Prop :=
  encode (.init .sha1) = 0x01000000 ∧ encode (.init .sha256) = 0x01010000 ∧
  (∀ (alg : Alg) (s : State), s.phase = .halted →
    exec (.init alg) s = .next { s with cpos := s.cpos + 1, cmd := s.cmd.drop 1 }) ∧
  (∀ (i : Instr) (s : State), (∀ alg, i ≠ .init alg) → s.phase = .uninit →
    exec i s =
      .next { s with err := .notInit, phase := .halted, cpos := s.cpos + 1, cmd := s.cmd.drop 1 }) ∧
  (∀ s : State, s.phase ≠ .halted →
    exec (.init .sha1) s =
      .next { s with
        mode := .sha1
        h := ⟨some 0x67452301, some 0xEFCDAB89, some 0x98BADCFE, some 0x10325476, some 0xC3D2E1F0,
          none, none, none⟩
        buflen := 0
        buf := Vector.replicate 64 none
        processed := 0
        f := ⟨none, none, none, none, none, none, none, none⟩
        fvalid := false
        phase := .active
        cpos := s.cpos + 1
        cmd := s.cmd.drop 1 } ∧
    exec (.init .sha256) s =
      .next { s with
        mode := .sha256
        h := ⟨some 0x6A09E667, some 0xBB67AE85, some 0x3C6EF372, some 0xA54FF53A, some 0x510E527F,
          some 0x9B05688C, some 0x1F83D9AB, some 0x5BE0CD19⟩
        buflen := 0
        buf := Vector.replicate 64 none
        processed := 0
        f := ⟨none, none, none, none, none, none, none, none⟩
        fvalid := false
        phase := .active
        cpos := s.cpos + 1
        cmd := s.cmd.drop 1 })

/-- R205, R206, R207 (closed form): UPDATE completes: the unprocessed bytes and the payload together
give the blocks compressed into H in order and the new remainder; PROCESSED counts the blocks; every
element R205 does not name keeps its value. -/
def Obligations.UpdateResult : Prop :=
  ∀ (s : State) (len : Nat) (p : List Word) (r : List Byte) (w : StateWords),
    s.phase = .active → s.payload (wordsForBytes len) = some p →
    s.unprocessed = some r → readFile s.mode s.h = some w →
    ∃ t w', exec (.update len) s = .next t ∧
      compressAll w (fullBlocks (r ++ payloadBytes p len)) = .ok w' ∧
      t.h = writeFile w' s.h ∧
      t.unprocessed = some (leftover (r ++ payloadBytes p len)) ∧
      t.buflen.toNat = (s.buflen.toNat + len) % 64 ∧
      t.processed = s.processed + BitVec.ofNat 64 (64 * ((s.buflen.toNat + len) / 64)) ∧
      t.cpos = s.cpos + 1 + (len + 3) / 4 ∧ t.cmd = s.cmd.drop (1 + (len + 3) / 4) ∧
      t.phase = s.phase ∧ t.mode = s.mode ∧ t.f = s.f ∧ t.fvalid = s.fvalid ∧ t.err = s.err ∧
      t.out = s.out ∧ t.rst = s.rst ∧ t.host = s.host ∧ t.doutReads = s.doutReads ∧
      t.statusReads = s.statusReads ∧ t.draws = s.draws

/-- R206, Case B: while the buffered bytes and the payload together stay shy of a block, UPDATE appends
them to BUF and compresses nothing; BUFLEN counts them, cpos and the command stream move past the words of
the command, and every other element, the other entries of BUF among them, keeps its value. No entry of H or
BUF need hold a value for it. -/
def Obligations.ShortUpdateOnlyAppends : Prop :=
  ∀ (s : State) (len : Nat) (p : List Word),
    s.phase = .active → s.payload (wordsForBytes len) = some p → s.buflen.toNat + len < 64 →
    ∃ t, exec (.update len) s = .next t ∧
      t.buflen.toNat = s.buflen.toNat + len ∧
      (∀ i : Fin 64, i.val < s.buflen.toNat ∨ s.buflen.toNat + len ≤ i.val →
        t.buf[i.val] = s.buf[i.val]) ∧
      (∀ i : Fin 64, s.buflen.toNat ≤ i.val → i.val < s.buflen.toNat + len →
        t.buf[i.val] = (payloadBytes p len)[i.val - s.buflen.toNat]?) ∧
      t.cpos = s.cpos + 1 + (len + 3) / 4 ∧ t.cmd = s.cmd.drop (1 + (len + 3) / 4) ∧
      t.h = s.h ∧ t.processed = s.processed ∧
      t.phase = s.phase ∧ t.mode = s.mode ∧ t.f = s.f ∧ t.fvalid = s.fvalid ∧ t.err = s.err ∧
      t.out = s.out ∧ t.rst = s.rst ∧ t.host = s.host ∧ t.doutReads = s.doutReads ∧
      t.statusReads = s.statusReads ∧ t.draws = s.draws

/-- R207: absorbing two byte strings one after the other reaches the same state as absorbing their
concatenation. -/
def Obligations.AbsorbIsChunkingInvariant : Prop :=
  ∀ (s : State) (d₁ d₂ : List Byte), Inv s → s.phase = .active →
    ∃ t u, s.absorb d₁ = .ok t ∧ t.absorb d₂ = .ok u ∧ s.absorb (d₁ ++ d₂) = .ok u

/-- R207: absorb is absorb_byte applied to each byte in order. -/
def Obligations.AbsorbIsBytewise : Prop :=
  ∀ (s : State) (d : List Byte), Inv s → s.phase = .active →
    ∃ t, s.absorb d = .ok t ∧ s.absorbBytewise d = .ok t

/-- R210: RESET, with the initialization constants of the MODE; F, FVALID, MODE and OUT are kept.
In UNINIT it takes NOT_INIT. -/
def Obligations.ResetResult : Prop :=
  encode .reset = 0x05000000 ∧
  (∀ s : State, s.phase = .active →
    exec .reset s =
      .next { s with
        h :=
          match s.mode with
          | .sha1 => ⟨some 0x67452301, some 0xEFCDAB89, some 0x98BADCFE, some 0x10325476,
              some 0xC3D2E1F0, none, none, none⟩
          | .sha256 => ⟨some 0x6A09E667, some 0xBB67AE85, some 0x3C6EF372, some 0xA54FF53A,
              some 0x510E527F, some 0x9B05688C, some 0x1F83D9AB, some 0x5BE0CD19⟩
        buf := Vector.replicate 64 none
        buflen := 0
        processed := 0
        cpos := s.cpos + 1
        cmd := s.cmd.drop 1 }) ∧
  (∀ s : State, s.phase = .uninit →
    exec .reset s =
      .next { s with err := .notInit, phase := .halted, cpos := s.cpos + 1, cmd := s.cmd.drop 1 })

/-- R215: FINALIZE completes: F is the padded remainder compressed from H, block by block in order;
H, BUF, BUFLEN, PROCESSED, MODE and OUT keep their values. In UNINIT it takes NOT_INIT. -/
def Obligations.FinalizeResult : Prop :=
  encode .finalize = 0x03000000 ∧
  (∀ (s : State) (r : List Byte) (w : StateWords),
    s.phase = .active → s.unprocessed = some r → readFile s.mode s.h = some w →
    ∃ w', compressAll w (fullBlocks (pad r s.bitlen)) = .ok w' ∧
      (fullBlocks (pad r s.bitlen)).flatten = pad r s.bitlen ∧
      exec .finalize s =
        .next { s with
          f := writeFile w' ⟨none, none, none, none, none, none, none, none⟩
          fvalid := true
          cpos := s.cpos + 1
          cmd := s.cmd.drop 1 }) ∧
  (∀ s : State, s.phase = .uninit →
    exec .finalize s =
      .next { s with err := .notInit, phase := .halted, cpos := s.cpos + 1, cmd := s.cmd.drop 1 })

/-- R216: the padding rule, its length and the big-endian length field. -/
def Obligations.PaddingRule : Prop :=
  ∀ (r : List Byte) (bits : BitVec 64), r.length ≤ 63 →
    (∃ z : Nat, (z : Int) = (55 - (r.length : Int)) % 64 ∧
      pad r bits = r ++ [0x80] ++ List.replicate z 0 ++ be64Bytes bits) ∧
    (r.length ≤ 55 → (pad r bits).length = 64) ∧
    (56 ≤ r.length → (pad r bits).length = 128) ∧
    (be64Bytes bits).length = 8 ∧
    (be64Bytes bits).foldl (fun acc b => acc * 256 + b.toNat) 0 = bits.toNat

/-- R217: the length field value is the message length in bits, wrapping modulo 2^64. -/
def Obligations.BitLengthWraps : Prop :=
  ∀ s : State, s.bitlen.toNat =
    ((s.processed.toNat + s.buflen.toNat) % 2 ^ 64 * 8) % 2 ^ 64

/-- R219 (a), (b): a second FINALIZE writes the same F, and a FINALIZE does not change what a later
absorption and finalization compute. -/
def Obligations.FinalizeIsIdempotent : Prop :=
  ∀ s t : State, s.phase = .active → exec .finalize s = .next t →
    (∃ u, exec .finalize t = .next u ∧ u.f = t.f ∧ u.fvalid = true) ∧
    (∀ (d : List Byte) (a : State), s.absorb d = .ok a →
      ∃ b, t.absorb d = .ok b ∧ b.finalWords = a.finalWords)

/-- R219 (c), R207: for every byte string absorbed from INIT, of any length, what FINALIZE computes is
the Merkle-Damgard chain over the whole message padded: its blocks in order from the initialization
constants, the length field holding the message length in bits modulo 2^64. -/
def Obligations.FinalizeGivesTheMessageDigest : Prop :=
  ∀ (alg : Alg) (s : State) (d : List Byte),
    ∃ (t : State) (z : Nat) (w : StateWords),
      (s.initialize alg).absorb d = .ok t ∧ z < 64 ∧ (d.length + 1 + z + 8) % 64 = 0 ∧
      compressAll (initialWords alg)
        (fullBlocks (d ++ [0x80] ++ List.replicate z 0 ++ be64Bytes (BitVec.ofNat 64 (8 * d.length)))) =
          .ok w ∧
      exec .finalize { t with cmd := [0x03000000] } =
        .next { t with f := freshFile w, fvalid := true, cpos := t.cpos + 1, cmd := [] }

/-! ### Finalized state and output (42_finalize.md, 20_memory.md) -/

/-- R240: DIGEST. In ACTIVE with FVALID = 1 it completes where its words fit in OUT: F0..F4 or
F0..F7, F0 first, at the tail of OUT, and nothing else changes; while they do not fit it is held; with
FVALID = 0 it takes NO_RESULT whatever room OUT has; in UNINIT it takes NOT_INIT. -/
def Obligations.DigestResult : Prop :=
  encode .digest = 0x04000000 ∧
  (∀ (s : State) (a b c d e : Word), s.phase = .active → s.fvalid = true → s.mode = .sha1 →
    s.out.length + 5 ≤ Config.outDepth →
    s.f.e0 = some a → s.f.e1 = some b → s.f.e2 = some c → s.f.e3 = some d → s.f.e4 = some e →
    exec .digest s =
      .next { s with out := s.out ++ [a, b, c, d, e], cpos := s.cpos + 1, cmd := s.cmd.drop 1 }) ∧
  (∀ (s : State) (a b c d e f g h : Word), s.phase = .active → s.fvalid = true → s.mode = .sha256 →
    s.out.length + 8 ≤ Config.outDepth →
    s.f.e0 = some a → s.f.e1 = some b → s.f.e2 = some c → s.f.e3 = some d →
    s.f.e4 = some e → s.f.e5 = some f → s.f.e6 = some g → s.f.e7 = some h →
    exec .digest s =
      .next { s with out := s.out ++ [a, b, c, d, e, f, g, h], cpos := s.cpos + 1, cmd := s.cmd.drop 1 }) ∧
  (∀ s : State, s.phase = .active → s.fvalid = true →
    Config.outDepth < s.out.length + (match s.mode with | .sha1 => 5 | .sha256 => 8) →
    waits .digest s = true ∧ exec .digest s = .next s) ∧
  (∀ s : State, s.phase = .active → s.fvalid = false →
    waits .digest s = false ∧
    exec .digest s =
      .next { s with err := .noResult, phase := .halted, cpos := s.cpos + 1, cmd := s.cmd.drop 1 }) ∧
  (∀ s : State, s.phase = .uninit →
    exec .digest s =
      .next { s with err := .notInit, phase := .halted, cpos := s.cpos + 1, cmd := s.cmd.drop 1 })


/-- R241: the digest bytes, fed back as a payload, are carried by exactly the words read from DOUT. -/
def Obligations.DigestWordsFeedBack : Prop :=
  ∀ ws : List Word,
    payloadBytes ws (4 * ws.length) = ws.flatMap be32Bytes ∧
    packBytes (ws.flatMap be32Bytes) = ws

/-- R245: FRESET, legal with either FVALID; it equals RESET followed by discarding F. -/
def Obligations.FresetResult : Prop :=
  encode .freset = 0x06000000 ∧
  (∀ s : State, s.phase = .active →
    exec .freset s =
      .next { s with
        f := ⟨none, none, none, none, none, none, none, none⟩
        fvalid := false
        h :=
          match s.mode with
          | .sha1 => ⟨some 0x67452301, some 0xEFCDAB89, some 0x98BADCFE, some 0x10325476,
              some 0xC3D2E1F0, none, none, none⟩
          | .sha256 => ⟨some 0x6A09E667, some 0xBB67AE85, some 0x3C6EF372, some 0xA54FF53A,
              some 0x510E527F, some 0x9B05688C, some 0x1F83D9AB, some 0x5BE0CD19⟩
        buf := Vector.replicate 64 none
        buflen := 0
        processed := 0
        cpos := s.cpos + 1
        cmd := s.cmd.drop 1 } ∧
    (∀ t, exec .reset s = .next t →
      exec .freset s =
        .next { t with f := ⟨none, none, none, none, none, none, none, none⟩, fvalid := false })) ∧
  (∀ s : State, s.phase = .uninit →
    exec .freset s =
      .next { s with err := .notInit, phase := .halted, cpos := s.cpos + 1, cmd := s.cmd.drop 1 })

/-- R75: a read of DOUT pops the head of OUT; where OUT is empty it returns a free value (a draw, log
entry 6) and changes no state of the engine. It holds in every phase. -/
def Obligations.DoutReadPopsTheHead : Prop :=
  ∀ s : State,
    (∀ (x : Word) (rest : List Word), s.out = x :: rest →
      hostMove .readDout s = .next { s with out := rest, doutReads := s.doutReads ++ [x] }) ∧
    (s.out = [] → ∃ x : Word,
      hostMove .readDout s = .next { s with doutReads := s.doutReads ++ [x], draws := s.draws + 1 })

/-- R78, R83, R306: while the command at cpos is enabled and no RST is next, the step is the command's: the
host's accesses and what it has read stay as they are until the command completes. No word of a later
command is in the stream, at reset and after every step, so when the host makes an access every command
all of whose words it has written has completed, but for an output command held for room, the last one. -/
def Obligations.ReadsAreHeldUntilCommandsComplete : Prop :=
  (∀ (s t : State) (w : Word) (rest : List Word) (i : Instr),
    s.rst = false → s.host.head? ≠ some .assertRst → s.cmd = w :: rest → decode w = .ok i →
    waits i s = false → step s = .next t →
    t.cpos = s.cpos + (s.cmd.length - t.cmd.length) ∧ t.cmd.length < s.cmd.length ∧
    t.host = s.host ∧ t.doutReads = s.doutReads ∧ t.statusReads = s.statusReads ∧ t.draws = s.draws) ∧
  StreamHolds State.reset ∧
  (∀ s t : State, StreamHolds s → step s = .next t → StreamHolds t) ∧
  (∀ s : State, StreamHolds s → s.rst = false → s.host.head? ≠ some .assertRst → turn s = .host →
    s.cmd = [] ∨
    ∃ w rest i, s.cmd = w :: rest ∧ decode w = .ok i ∧ waits i s = true ∧
      (((i = .digest ∨ i = .readh) ∧ rest = []) ∨ rest.length < payloadCount i))

/-- R72: the three port locations, ENGINE_BASE a multiple of 4, and the refusal of every other access. -/
def Obligations.BusAccessesReachThePortsOrAreRefused : Prop :=
  Config.engineBase % 4 = 0 ∧
  ∀ (s : State) (addr width : Nat) (data : Word),
    (addr = Config.engineBase → width = 4 →
      hostMove (.busWrite addr width data) s = hostMove (.writeCmd data) s) ∧
    (addr = Config.engineBase + 4 → width = 4 →
      hostMove (.busRead addr width) s = hostMove .readDout s) ∧
    (addr = Config.engineBase + 8 → width = 4 →
      hostMove (.busRead addr width) s = hostMove .readStatus s) ∧
    (¬(addr = Config.engineBase ∧ width = 4) →
      hostMove (.busWrite addr width data) s = .refused .busAccess) ∧
    (¬((addr = Config.engineBase + 4 ∨ addr = Config.engineBase + 8) ∧ width = 4) →
      hostMove (.busRead addr width) s = .refused .busAccess)

/-! ### Faults, holds and RST (60_exceptions.md, 70_reset_and_hazards.md) -/

/-- R272: a command that faults sets ERR and PHASE, consumes the command word and changes nothing else:
the faults a command raises, and the illegal word. -/
def Obligations.FaultEntry : Prop :=
  (∀ (i : Instr) (s t : State), exec i s = .next t → s.phase ≠ .halted → t.phase = .halted →
    (t.err = .notInit ∨ t.err = .blockSize ∨ t.err = .noResult) ∧
    t = { s with err := t.err, phase := .halted, cpos := s.cpos + 1, cmd := s.cmd.drop 1 }) ∧
  (∀ (s : State) (w : Word) (rest : List Word) (e : Illegal), s.rst = false →
    s.host.head? ≠ some .assertRst → s.cmd = w :: rest → s.phase ≠ .halted → decode w = .error e →
    step s = .next { s with err := .illegal, phase := .halted, cpos := s.cpos + 1, cmd := s.cmd.drop 1 })

/-- R273: in HALTED every word is discarded, one per step, whatever it is, with no other effect; DOUT
and STATUS stay readable. -/
def Obligations.HaltedDiscardsWords : Prop :=
  ∀ s : State, s.phase = .halted →
    (∀ (w : Word) (rest : List Word), s.rst = false → s.host.head? ≠ some .assertRst →
      s.cmd = w :: rest → step s = .next { s with cpos := s.cpos + 1, cmd := rest }) ∧
    (∀ (x : Word) (rest : List Word), s.out = x :: rest →
      hostMove .readDout s = .next { s with out := rest, doutReads := s.doutReads ++ [x] }) ∧
    hostMove .readStatus s = .next { s with statusReads := s.statusReads ++ [s.status] }

/-- R274: without an RST a run never leaves HALTED, and ERR keeps the code of the first fault. -/
def Obligations.HaltedRunsStayHalted : Prop :=
  ∀ (n : Nat) (s t : State), s.phase = .halted → (∀ m ∈ s.host, m ≠ .assertRst) →
    Host.Core.run Sys2Proof.core n s = .next t →
    t.phase = .halted ∧ t.err = s.err ∧ t.h = s.h ∧ t.f = s.f ∧ t.mode = s.mode

/-- R278, R108: UPDATE and COMPRESS wait, with nothing changed, exactly while a payload word is missing; what lifts the
wait is a word written to CMD, or RST. -/
def Obligations.MissingPayloadWaits : Prop :=
  (∀ (s : State) (len : Nat), s.phase = .active → s.cmd ≠ [] ∨ 0 < len →
    ((waits (.update len) s = true) ↔ s.cmd.length < 1 + (len + 3) / 4) ∧
    (waits (.update len) s = true → exec (.update len) s = .next s)) ∧
  (∀ s : State, s.phase = .active →
    ((waits (.compress 64) s = true) ↔ s.cmd.length < 17) ∧
    (waits (.compress 64) s = true → exec (.compress 64) s = .next s)) ∧
  (∀ (s t : State) (w : Word) (rest : List Word) (i : Instr), s.cmd = w :: rest → decode w = .ok i →
    (∃ len, i = .update len ∨ i = .compress len) → waits i s = true → step s = .next t →
    waits i t = false →
    (∃ x, t.cmd = s.cmd ++ [x]) ∨ s.host.head? = some .assertRst)

/-- R286: DIGEST with FVALID = 1 and READH are held exactly while their words do not fit in OUT; nothing
changes; without a host access the engine waits forever; what lifts the hold is a read of DOUT, or RST. -/
def Obligations.OutputHold : Prop :=
  (∀ s : State, s.phase = .active →
    ((waits .readh s = true) ↔ Config.outDepth < s.out.length + (match s.mode with | .sha1 => 5 | .sha256 => 8)) ∧
    ((waits .digest s = true) ↔
      s.fvalid = true ∧ Config.outDepth < s.out.length + (match s.mode with | .sha1 => 5 | .sha256 => 8)) ∧
    (waits .readh s = true → exec .readh s = .next s) ∧
    (waits .digest s = true → exec .digest s = .next s)) ∧
  (∀ (n : Nat) (s : State) (w : Word) (rest : List Word) (i : Instr),
    s.host = [] → s.cmd = w :: rest → decode w = .ok i → (i = .digest ∨ i = .readh) →
    waits i s = true → Host.Core.run Sys2Proof.core n s = .next s) ∧
  (∀ (s t : State) (w : Word) (rest : List Word) (i : Instr), s.cmd = w :: rest → decode w = .ok i →
    (i = .digest ∨ i = .readh) → waits i s = true → step s = .next t → waits i t = false →
    (∃ x, s.out = x :: t.out ∧ t.doutReads = s.doutReads ++ [x]) ∨ AssertsRst s)

/-- R83, R278, R286, R310: a stuck run, whose command waits and whose host has nothing more to do or is at a
held write and asserts no RST, stays as it is and has not ended. That a waiting command's step answers the
unchanged state is log entry 3; that the port accesses behind a held write wait with it is log entry 15. -/
def Obligations.StuckRunsNeverEnd : Prop :=
  ∀ (n : Nat) (s : State), StuckRun s →
    Host.Core.run Sys2Proof.core n s = .next s ∧ ¬ RunEnded s

/-- R300, R301: RST gives every element of R48 its value and wins over every command not yet executed;
a word written while it is asserted is discarded. R286, R311: while the host's write is held behind a DIGEST
or READH it still asserts its next RST; that the accesses before that RST are never made is log entry 15. -/
def Obligations.RstRestoresTheResetState : Prop :=
  (∀ (s : State) (m : HostMove) (pre rest : List HostMove) (x : Word) (xs : List Word) (i : Instr),
    s.rst = false → s.cmd = x :: xs → decode x = .ok i → (i = .digest ∨ i = .readh) → waits i s = true →
    s.host = m :: pre ++ .assertRst :: rest → writesCmd m = true → .assertRst ∉ pre →
    step s =
      .next { State.reset with
        rst := true, host := rest, doutReads := s.doutReads, statusReads := s.statusReads,
        draws := s.draws }) ∧
  (∀ (s : State) (rest : List HostMove), s.host = .assertRst :: rest →
    step s =
      .next { State.reset with
        rst := true, host := rest, doutReads := s.doutReads, statusReads := s.statusReads,
        draws := s.draws }) ∧
  (∀ (s : State) (w : Word) (rest : List HostMove), s.rst = true → s.host = .writeCmd w :: rest →
    step s = .next { s with host := rest }) ∧
  (∀ (s : State) (rest : List HostMove), s.rst = true → s.host = .releaseRst :: rest →
    step s = .next { s with rst := false, host := rest })

/-- R71, R83: a write of CMD appends one word to the command stream and changes nothing else, and it
completes on the host's turn; but while the DIGEST or READH at cpos is held for room in OUT the port holds
it, and the host, which makes its port accesses in order, waits with it unless it asserts RST. -/
def Obligations.CmdWriteAppends : Prop :=
  (∀ (s : State) (w : Word), s.rst = false →
    hostMove (.writeCmd w) s = .next { s with cmd := s.cmd ++ [w] }) ∧
  (∀ (s : State) (w : Word) (rest : List HostMove), s.rst = false → s.cmd = [] →
    s.host = .writeCmd w :: rest → step s = .next { s with host := rest, cmd := [w] }) ∧
  (∀ (s : State) (w : Word) (rest : List HostMove), s.rst = false → s.host = .writeCmd w :: rest →
    turn s = .host →
    (∀ x xs i, s.cmd = x :: xs → decode x = .ok i → i = .digest ∨ i = .readh → waits i s = false) →
    step s = .next { s with host := rest, cmd := s.cmd ++ [w] }) ∧
  (∀ (s : State) (m : HostMove) (rest : List HostMove) (x : Word) (xs : List Word) (i : Instr) (n : Nat),
    s.rst = false → s.cmd = x :: xs → decode x = .ok i → (i = .digest ∨ i = .readh) → waits i s = true →
    s.host = m :: rest → writesCmd m = true → .assertRst ∉ rest →
    step s = .next s ∧ Host.Core.run Sys2Proof.core n s = .next s)
end

