-- ==== Sys2Proof/Laws/State.lean ====
section
/-! SUPPORT. One lemma per field of State for each named update, each true by rfl, so that no proof
unfolds a record update. -/

namespace Sys2Proof.Machine

@[simp] theorem State.consume_phase (k : Nat) (s : State) : (s.consume k).phase = s.phase := rfl
@[simp] theorem State.consume_mode (k : Nat) (s : State) : (s.consume k).mode = s.mode := rfl
@[simp] theorem State.consume_h (k : Nat) (s : State) : (s.consume k).h = s.h := rfl
@[simp] theorem State.consume_buf (k : Nat) (s : State) : (s.consume k).buf = s.buf := rfl
@[simp] theorem State.consume_buflen (k : Nat) (s : State) : (s.consume k).buflen = s.buflen := rfl
@[simp] theorem State.consume_processed (k : Nat) (s : State) : (s.consume k).processed = s.processed := rfl
@[simp] theorem State.consume_f (k : Nat) (s : State) : (s.consume k).f = s.f := rfl
@[simp] theorem State.consume_fvalid (k : Nat) (s : State) : (s.consume k).fvalid = s.fvalid := rfl
@[simp] theorem State.consume_err (k : Nat) (s : State) : (s.consume k).err = s.err := rfl
@[simp] theorem State.consume_out (k : Nat) (s : State) : (s.consume k).out = s.out := rfl
@[simp] theorem State.consume_cpos (k : Nat) (s : State) : (s.consume k).cpos = s.cpos + k := rfl
@[simp] theorem State.consume_cmd (k : Nat) (s : State) : (s.consume k).cmd = s.cmd.drop k := rfl
@[simp] theorem State.consume_rst (k : Nat) (s : State) : (s.consume k).rst = s.rst := rfl
@[simp] theorem State.consume_host (k : Nat) (s : State) : (s.consume k).host = s.host := rfl
@[simp] theorem State.consume_doutReads (k : Nat) (s : State) : (s.consume k).doutReads = s.doutReads := rfl
@[simp] theorem State.consume_statusReads (k : Nat) (s : State) : (s.consume k).statusReads = s.statusReads := rfl
@[simp] theorem State.consume_draws (k : Nat) (s : State) : (s.consume k).draws = s.draws := rfl

@[simp] theorem State.raiseFault_phase (c : ErrCode) (s : State) : (s.raiseFault c).phase = .halted := rfl
@[simp] theorem State.raiseFault_mode (c : ErrCode) (s : State) : (s.raiseFault c).mode = s.mode := rfl
@[simp] theorem State.raiseFault_h (c : ErrCode) (s : State) : (s.raiseFault c).h = s.h := rfl
@[simp] theorem State.raiseFault_buf (c : ErrCode) (s : State) : (s.raiseFault c).buf = s.buf := rfl
@[simp] theorem State.raiseFault_buflen (c : ErrCode) (s : State) : (s.raiseFault c).buflen = s.buflen := rfl
@[simp] theorem State.raiseFault_processed (c : ErrCode) (s : State) : (s.raiseFault c).processed = s.processed := rfl
@[simp] theorem State.raiseFault_f (c : ErrCode) (s : State) : (s.raiseFault c).f = s.f := rfl
@[simp] theorem State.raiseFault_fvalid (c : ErrCode) (s : State) : (s.raiseFault c).fvalid = s.fvalid := rfl
@[simp] theorem State.raiseFault_err (c : ErrCode) (s : State) : (s.raiseFault c).err = c := rfl
@[simp] theorem State.raiseFault_out (c : ErrCode) (s : State) : (s.raiseFault c).out = s.out := rfl
@[simp] theorem State.raiseFault_cpos (c : ErrCode) (s : State) : (s.raiseFault c).cpos = s.cpos + 1 := rfl
@[simp] theorem State.raiseFault_cmd (c : ErrCode) (s : State) : (s.raiseFault c).cmd = s.cmd.drop 1 := rfl
@[simp] theorem State.raiseFault_rst (c : ErrCode) (s : State) : (s.raiseFault c).rst = s.rst := rfl
@[simp] theorem State.raiseFault_host (c : ErrCode) (s : State) : (s.raiseFault c).host = s.host := rfl
@[simp] theorem State.raiseFault_doutReads (c : ErrCode) (s : State) : (s.raiseFault c).doutReads = s.doutReads := rfl
@[simp] theorem State.raiseFault_statusReads (c : ErrCode) (s : State) : (s.raiseFault c).statusReads = s.statusReads := rfl
@[simp] theorem State.raiseFault_draws (c : ErrCode) (s : State) : (s.raiseFault c).draws = s.draws := rfl

@[simp] theorem State.discardWord_phase (s : State) : (s.discardWord).phase = s.phase := rfl
@[simp] theorem State.discardWord_mode (s : State) : (s.discardWord).mode = s.mode := rfl
@[simp] theorem State.discardWord_h (s : State) : (s.discardWord).h = s.h := rfl
@[simp] theorem State.discardWord_buf (s : State) : (s.discardWord).buf = s.buf := rfl
@[simp] theorem State.discardWord_buflen (s : State) : (s.discardWord).buflen = s.buflen := rfl
@[simp] theorem State.discardWord_processed (s : State) : (s.discardWord).processed = s.processed := rfl
@[simp] theorem State.discardWord_f (s : State) : (s.discardWord).f = s.f := rfl
@[simp] theorem State.discardWord_fvalid (s : State) : (s.discardWord).fvalid = s.fvalid := rfl
@[simp] theorem State.discardWord_err (s : State) : (s.discardWord).err = s.err := rfl
@[simp] theorem State.discardWord_out (s : State) : (s.discardWord).out = s.out := rfl
@[simp] theorem State.discardWord_cpos (s : State) : (s.discardWord).cpos = s.cpos + 1 := rfl
@[simp] theorem State.discardWord_cmd (s : State) : (s.discardWord).cmd = s.cmd.drop 1 := rfl
@[simp] theorem State.discardWord_rst (s : State) : (s.discardWord).rst = s.rst := rfl
@[simp] theorem State.discardWord_host (s : State) : (s.discardWord).host = s.host := rfl
@[simp] theorem State.discardWord_doutReads (s : State) : (s.discardWord).doutReads = s.doutReads := rfl
@[simp] theorem State.discardWord_statusReads (s : State) : (s.discardWord).statusReads = s.statusReads := rfl
@[simp] theorem State.discardWord_draws (s : State) : (s.discardWord).draws = s.draws := rfl

@[simp] theorem State.appendBuf_phase (d : List Byte) (s : State) : (s.appendBuf d).phase = s.phase := rfl
@[simp] theorem State.appendBuf_mode (d : List Byte) (s : State) : (s.appendBuf d).mode = s.mode := rfl
@[simp] theorem State.appendBuf_h (d : List Byte) (s : State) : (s.appendBuf d).h = s.h := rfl
@[simp] theorem State.appendBuf_buf (d : List Byte) (s : State) : (s.appendBuf d).buf = writeBytes s.buf s.buflen.toNat d := rfl
@[simp] theorem State.appendBuf_buflen (d : List Byte) (s : State) : (s.appendBuf d).buflen = s.buflen + BitVec.ofNat 6 d.length := rfl
@[simp] theorem State.appendBuf_processed (d : List Byte) (s : State) : (s.appendBuf d).processed = s.processed := rfl
@[simp] theorem State.appendBuf_f (d : List Byte) (s : State) : (s.appendBuf d).f = s.f := rfl
@[simp] theorem State.appendBuf_fvalid (d : List Byte) (s : State) : (s.appendBuf d).fvalid = s.fvalid := rfl
@[simp] theorem State.appendBuf_err (d : List Byte) (s : State) : (s.appendBuf d).err = s.err := rfl
@[simp] theorem State.appendBuf_out (d : List Byte) (s : State) : (s.appendBuf d).out = s.out := rfl
@[simp] theorem State.appendBuf_cpos (d : List Byte) (s : State) : (s.appendBuf d).cpos = s.cpos := rfl
@[simp] theorem State.appendBuf_cmd (d : List Byte) (s : State) : (s.appendBuf d).cmd = s.cmd := rfl
@[simp] theorem State.appendBuf_rst (d : List Byte) (s : State) : (s.appendBuf d).rst = s.rst := rfl
@[simp] theorem State.appendBuf_host (d : List Byte) (s : State) : (s.appendBuf d).host = s.host := rfl
@[simp] theorem State.appendBuf_doutReads (d : List Byte) (s : State) : (s.appendBuf d).doutReads = s.doutReads := rfl
@[simp] theorem State.appendBuf_statusReads (d : List Byte) (s : State) : (s.appendBuf d).statusReads = s.statusReads := rfl
@[simp] theorem State.appendBuf_draws (d : List Byte) (s : State) : (s.appendBuf d).draws = s.draws := rfl

@[simp] theorem State.refillBuf_phase (d : List Byte) (s : State) : (s.refillBuf d).phase = s.phase := rfl
@[simp] theorem State.refillBuf_mode (d : List Byte) (s : State) : (s.refillBuf d).mode = s.mode := rfl
@[simp] theorem State.refillBuf_h (d : List Byte) (s : State) : (s.refillBuf d).h = s.h := rfl
@[simp] theorem State.refillBuf_buf (d : List Byte) (s : State) : (s.refillBuf d).buf = writeBytes emptyBuf 0 d := rfl
@[simp] theorem State.refillBuf_buflen (d : List Byte) (s : State) : (s.refillBuf d).buflen = BitVec.ofNat 6 d.length := rfl
@[simp] theorem State.refillBuf_processed (d : List Byte) (s : State) : (s.refillBuf d).processed = s.processed := rfl
@[simp] theorem State.refillBuf_f (d : List Byte) (s : State) : (s.refillBuf d).f = s.f := rfl
@[simp] theorem State.refillBuf_fvalid (d : List Byte) (s : State) : (s.refillBuf d).fvalid = s.fvalid := rfl
@[simp] theorem State.refillBuf_err (d : List Byte) (s : State) : (s.refillBuf d).err = s.err := rfl
@[simp] theorem State.refillBuf_out (d : List Byte) (s : State) : (s.refillBuf d).out = s.out := rfl
@[simp] theorem State.refillBuf_cpos (d : List Byte) (s : State) : (s.refillBuf d).cpos = s.cpos := rfl
@[simp] theorem State.refillBuf_cmd (d : List Byte) (s : State) : (s.refillBuf d).cmd = s.cmd := rfl
@[simp] theorem State.refillBuf_rst (d : List Byte) (s : State) : (s.refillBuf d).rst = s.rst := rfl
@[simp] theorem State.refillBuf_host (d : List Byte) (s : State) : (s.refillBuf d).host = s.host := rfl
@[simp] theorem State.refillBuf_doutReads (d : List Byte) (s : State) : (s.refillBuf d).doutReads = s.doutReads := rfl
@[simp] theorem State.refillBuf_statusReads (d : List Byte) (s : State) : (s.refillBuf d).statusReads = s.statusReads := rfl
@[simp] theorem State.refillBuf_draws (d : List Byte) (s : State) : (s.refillBuf d).draws = s.draws := rfl

@[simp] theorem State.freshAccumulator_phase (s : State) : (s.freshAccumulator).phase = s.phase := rfl
@[simp] theorem State.freshAccumulator_mode (s : State) : (s.freshAccumulator).mode = s.mode := rfl
@[simp] theorem State.freshAccumulator_h (s : State) : (s.freshAccumulator).h = freshFile (initialWords s.mode) := rfl
@[simp] theorem State.freshAccumulator_buf (s : State) : (s.freshAccumulator).buf = emptyBuf := rfl
@[simp] theorem State.freshAccumulator_buflen (s : State) : (s.freshAccumulator).buflen = 0 := rfl
@[simp] theorem State.freshAccumulator_processed (s : State) : (s.freshAccumulator).processed = 0 := rfl
@[simp] theorem State.freshAccumulator_f (s : State) : (s.freshAccumulator).f = s.f := rfl
@[simp] theorem State.freshAccumulator_fvalid (s : State) : (s.freshAccumulator).fvalid = s.fvalid := rfl
@[simp] theorem State.freshAccumulator_err (s : State) : (s.freshAccumulator).err = s.err := rfl
@[simp] theorem State.freshAccumulator_out (s : State) : (s.freshAccumulator).out = s.out := rfl
@[simp] theorem State.freshAccumulator_cpos (s : State) : (s.freshAccumulator).cpos = s.cpos := rfl
@[simp] theorem State.freshAccumulator_cmd (s : State) : (s.freshAccumulator).cmd = s.cmd := rfl
@[simp] theorem State.freshAccumulator_rst (s : State) : (s.freshAccumulator).rst = s.rst := rfl
@[simp] theorem State.freshAccumulator_host (s : State) : (s.freshAccumulator).host = s.host := rfl
@[simp] theorem State.freshAccumulator_doutReads (s : State) : (s.freshAccumulator).doutReads = s.doutReads := rfl
@[simp] theorem State.freshAccumulator_statusReads (s : State) : (s.freshAccumulator).statusReads = s.statusReads := rfl
@[simp] theorem State.freshAccumulator_draws (s : State) : (s.freshAccumulator).draws = s.draws := rfl

@[simp] theorem State.discardFinal_phase (s : State) : (s.discardFinal).phase = s.phase := rfl
@[simp] theorem State.discardFinal_mode (s : State) : (s.discardFinal).mode = s.mode := rfl
@[simp] theorem State.discardFinal_h (s : State) : (s.discardFinal).h = s.h := rfl
@[simp] theorem State.discardFinal_buf (s : State) : (s.discardFinal).buf = s.buf := rfl
@[simp] theorem State.discardFinal_buflen (s : State) : (s.discardFinal).buflen = s.buflen := rfl
@[simp] theorem State.discardFinal_processed (s : State) : (s.discardFinal).processed = s.processed := rfl
@[simp] theorem State.discardFinal_f (s : State) : (s.discardFinal).f = RegFile.bottom := rfl
@[simp] theorem State.discardFinal_fvalid (s : State) : (s.discardFinal).fvalid = false := rfl
@[simp] theorem State.discardFinal_err (s : State) : (s.discardFinal).err = s.err := rfl
@[simp] theorem State.discardFinal_out (s : State) : (s.discardFinal).out = s.out := rfl
@[simp] theorem State.discardFinal_cpos (s : State) : (s.discardFinal).cpos = s.cpos := rfl
@[simp] theorem State.discardFinal_cmd (s : State) : (s.discardFinal).cmd = s.cmd := rfl
@[simp] theorem State.discardFinal_rst (s : State) : (s.discardFinal).rst = s.rst := rfl
@[simp] theorem State.discardFinal_host (s : State) : (s.discardFinal).host = s.host := rfl
@[simp] theorem State.discardFinal_doutReads (s : State) : (s.discardFinal).doutReads = s.doutReads := rfl
@[simp] theorem State.discardFinal_statusReads (s : State) : (s.discardFinal).statusReads = s.statusReads := rfl
@[simp] theorem State.discardFinal_draws (s : State) : (s.discardFinal).draws = s.draws := rfl

@[simp] theorem State.setFinal_phase (w : StateWords) (s : State) : (s.setFinal w).phase = s.phase := rfl
@[simp] theorem State.setFinal_mode (w : StateWords) (s : State) : (s.setFinal w).mode = s.mode := rfl
@[simp] theorem State.setFinal_h (w : StateWords) (s : State) : (s.setFinal w).h = s.h := rfl
@[simp] theorem State.setFinal_buf (w : StateWords) (s : State) : (s.setFinal w).buf = s.buf := rfl
@[simp] theorem State.setFinal_buflen (w : StateWords) (s : State) : (s.setFinal w).buflen = s.buflen := rfl
@[simp] theorem State.setFinal_processed (w : StateWords) (s : State) : (s.setFinal w).processed = s.processed := rfl
@[simp] theorem State.setFinal_f (w : StateWords) (s : State) : (s.setFinal w).f = freshFile w := rfl
@[simp] theorem State.setFinal_fvalid (w : StateWords) (s : State) : (s.setFinal w).fvalid = true := rfl
@[simp] theorem State.setFinal_err (w : StateWords) (s : State) : (s.setFinal w).err = s.err := rfl
@[simp] theorem State.setFinal_out (w : StateWords) (s : State) : (s.setFinal w).out = s.out := rfl
@[simp] theorem State.setFinal_cpos (w : StateWords) (s : State) : (s.setFinal w).cpos = s.cpos := rfl
@[simp] theorem State.setFinal_cmd (w : StateWords) (s : State) : (s.setFinal w).cmd = s.cmd := rfl
@[simp] theorem State.setFinal_rst (w : StateWords) (s : State) : (s.setFinal w).rst = s.rst := rfl
@[simp] theorem State.setFinal_host (w : StateWords) (s : State) : (s.setFinal w).host = s.host := rfl
@[simp] theorem State.setFinal_doutReads (w : StateWords) (s : State) : (s.setFinal w).doutReads = s.doutReads := rfl
@[simp] theorem State.setFinal_statusReads (w : StateWords) (s : State) : (s.setFinal w).statusReads = s.statusReads := rfl
@[simp] theorem State.setFinal_draws (w : StateWords) (s : State) : (s.setFinal w).draws = s.draws := rfl

@[simp] theorem State.pushOut_phase (w : StateWords) (s : State) : (s.pushOut w).phase = s.phase := rfl
@[simp] theorem State.pushOut_mode (w : StateWords) (s : State) : (s.pushOut w).mode = s.mode := rfl
@[simp] theorem State.pushOut_h (w : StateWords) (s : State) : (s.pushOut w).h = s.h := rfl
@[simp] theorem State.pushOut_buf (w : StateWords) (s : State) : (s.pushOut w).buf = s.buf := rfl
@[simp] theorem State.pushOut_buflen (w : StateWords) (s : State) : (s.pushOut w).buflen = s.buflen := rfl
@[simp] theorem State.pushOut_processed (w : StateWords) (s : State) : (s.pushOut w).processed = s.processed := rfl
@[simp] theorem State.pushOut_f (w : StateWords) (s : State) : (s.pushOut w).f = s.f := rfl
@[simp] theorem State.pushOut_fvalid (w : StateWords) (s : State) : (s.pushOut w).fvalid = s.fvalid := rfl
@[simp] theorem State.pushOut_err (w : StateWords) (s : State) : (s.pushOut w).err = s.err := rfl
@[simp] theorem State.pushOut_out (w : StateWords) (s : State) : (s.pushOut w).out = s.out ++ stateWordList w := rfl
@[simp] theorem State.pushOut_cpos (w : StateWords) (s : State) : (s.pushOut w).cpos = s.cpos := rfl
@[simp] theorem State.pushOut_cmd (w : StateWords) (s : State) : (s.pushOut w).cmd = s.cmd := rfl
@[simp] theorem State.pushOut_rst (w : StateWords) (s : State) : (s.pushOut w).rst = s.rst := rfl
@[simp] theorem State.pushOut_host (w : StateWords) (s : State) : (s.pushOut w).host = s.host := rfl
@[simp] theorem State.pushOut_doutReads (w : StateWords) (s : State) : (s.pushOut w).doutReads = s.doutReads := rfl
@[simp] theorem State.pushOut_statusReads (w : StateWords) (s : State) : (s.pushOut w).statusReads = s.statusReads := rfl
@[simp] theorem State.pushOut_draws (w : StateWords) (s : State) : (s.pushOut w).draws = s.draws := rfl

@[simp] theorem State.initialize_phase (alg : Alg) (s : State) : (s.initialize alg).phase = .active := rfl
@[simp] theorem State.initialize_mode (alg : Alg) (s : State) : (s.initialize alg).mode = alg := rfl
@[simp] theorem State.initialize_h (alg : Alg) (s : State) : (s.initialize alg).h = freshFile (initialWords alg) := rfl
@[simp] theorem State.initialize_buf (alg : Alg) (s : State) : (s.initialize alg).buf = emptyBuf := rfl
@[simp] theorem State.initialize_buflen (alg : Alg) (s : State) : (s.initialize alg).buflen = 0 := rfl
@[simp] theorem State.initialize_processed (alg : Alg) (s : State) : (s.initialize alg).processed = 0 := rfl
@[simp] theorem State.initialize_f (alg : Alg) (s : State) : (s.initialize alg).f = RegFile.bottom := rfl
@[simp] theorem State.initialize_fvalid (alg : Alg) (s : State) : (s.initialize alg).fvalid = false := rfl
@[simp] theorem State.initialize_err (alg : Alg) (s : State) : (s.initialize alg).err = s.err := rfl
@[simp] theorem State.initialize_out (alg : Alg) (s : State) : (s.initialize alg).out = s.out := rfl
@[simp] theorem State.initialize_cpos (alg : Alg) (s : State) : (s.initialize alg).cpos = s.cpos := rfl
@[simp] theorem State.initialize_cmd (alg : Alg) (s : State) : (s.initialize alg).cmd = s.cmd := rfl
@[simp] theorem State.initialize_rst (alg : Alg) (s : State) : (s.initialize alg).rst = s.rst := rfl
@[simp] theorem State.initialize_host (alg : Alg) (s : State) : (s.initialize alg).host = s.host := rfl
@[simp] theorem State.initialize_doutReads (alg : Alg) (s : State) : (s.initialize alg).doutReads = s.doutReads := rfl
@[simp] theorem State.initialize_statusReads (alg : Alg) (s : State) : (s.initialize alg).statusReads = s.statusReads := rfl
@[simp] theorem State.initialize_draws (alg : Alg) (s : State) : (s.initialize alg).draws = s.draws := rfl

@[simp] theorem State.readStatus_phase (s : State) : (s.readStatus).phase = s.phase := rfl
@[simp] theorem State.readStatus_mode (s : State) : (s.readStatus).mode = s.mode := rfl
@[simp] theorem State.readStatus_h (s : State) : (s.readStatus).h = s.h := rfl
@[simp] theorem State.readStatus_buf (s : State) : (s.readStatus).buf = s.buf := rfl
@[simp] theorem State.readStatus_buflen (s : State) : (s.readStatus).buflen = s.buflen := rfl
@[simp] theorem State.readStatus_processed (s : State) : (s.readStatus).processed = s.processed := rfl
@[simp] theorem State.readStatus_f (s : State) : (s.readStatus).f = s.f := rfl
@[simp] theorem State.readStatus_fvalid (s : State) : (s.readStatus).fvalid = s.fvalid := rfl
@[simp] theorem State.readStatus_err (s : State) : (s.readStatus).err = s.err := rfl
@[simp] theorem State.readStatus_out (s : State) : (s.readStatus).out = s.out := rfl
@[simp] theorem State.readStatus_cpos (s : State) : (s.readStatus).cpos = s.cpos := rfl
@[simp] theorem State.readStatus_cmd (s : State) : (s.readStatus).cmd = s.cmd := rfl
@[simp] theorem State.readStatus_rst (s : State) : (s.readStatus).rst = s.rst := rfl
@[simp] theorem State.readStatus_host (s : State) : (s.readStatus).host = s.host := rfl
@[simp] theorem State.readStatus_doutReads (s : State) : (s.readStatus).doutReads = s.doutReads := rfl
@[simp] theorem State.readStatus_statusReads (s : State) : (s.readStatus).statusReads = s.statusReads ++ [s.status] := rfl
@[simp] theorem State.readStatus_draws (s : State) : (s.readStatus).draws = s.draws := rfl

@[simp] theorem State.assertRst_phase (s : State) : (s.assertRst).phase = .uninit := rfl
@[simp] theorem State.assertRst_mode (s : State) : (s.assertRst).mode = .sha1 := rfl
@[simp] theorem State.assertRst_h (s : State) : (s.assertRst).h = RegFile.bottom := rfl
@[simp] theorem State.assertRst_buf (s : State) : (s.assertRst).buf = emptyBuf := rfl
@[simp] theorem State.assertRst_buflen (s : State) : (s.assertRst).buflen = 0 := rfl
@[simp] theorem State.assertRst_processed (s : State) : (s.assertRst).processed = 0 := rfl
@[simp] theorem State.assertRst_f (s : State) : (s.assertRst).f = RegFile.bottom := rfl
@[simp] theorem State.assertRst_fvalid (s : State) : (s.assertRst).fvalid = false := rfl
@[simp] theorem State.assertRst_err (s : State) : (s.assertRst).err = .none := rfl
@[simp] theorem State.assertRst_out (s : State) : (s.assertRst).out = [] := rfl
@[simp] theorem State.assertRst_cpos (s : State) : (s.assertRst).cpos = 0 := rfl
@[simp] theorem State.assertRst_cmd (s : State) : (s.assertRst).cmd = [] := rfl
@[simp] theorem State.assertRst_rst (s : State) : (s.assertRst).rst = true := rfl
@[simp] theorem State.assertRst_host (s : State) : (s.assertRst).host = s.host := rfl
@[simp] theorem State.assertRst_doutReads (s : State) : (s.assertRst).doutReads = s.doutReads := rfl
@[simp] theorem State.assertRst_statusReads (s : State) : (s.assertRst).statusReads = s.statusReads := rfl
@[simp] theorem State.assertRst_draws (s : State) : (s.assertRst).draws = s.draws := rfl

@[simp] theorem State.releaseRst_phase (s : State) : (s.releaseRst).phase = s.phase := rfl
@[simp] theorem State.releaseRst_mode (s : State) : (s.releaseRst).mode = s.mode := rfl
@[simp] theorem State.releaseRst_h (s : State) : (s.releaseRst).h = s.h := rfl
@[simp] theorem State.releaseRst_buf (s : State) : (s.releaseRst).buf = s.buf := rfl
@[simp] theorem State.releaseRst_buflen (s : State) : (s.releaseRst).buflen = s.buflen := rfl
@[simp] theorem State.releaseRst_processed (s : State) : (s.releaseRst).processed = s.processed := rfl
@[simp] theorem State.releaseRst_f (s : State) : (s.releaseRst).f = s.f := rfl
@[simp] theorem State.releaseRst_fvalid (s : State) : (s.releaseRst).fvalid = s.fvalid := rfl
@[simp] theorem State.releaseRst_err (s : State) : (s.releaseRst).err = s.err := rfl
@[simp] theorem State.releaseRst_out (s : State) : (s.releaseRst).out = s.out := rfl
@[simp] theorem State.releaseRst_cpos (s : State) : (s.releaseRst).cpos = s.cpos := rfl
@[simp] theorem State.releaseRst_cmd (s : State) : (s.releaseRst).cmd = s.cmd := rfl
@[simp] theorem State.releaseRst_rst (s : State) : (s.releaseRst).rst = false := rfl
@[simp] theorem State.releaseRst_host (s : State) : (s.releaseRst).host = s.host := rfl
@[simp] theorem State.releaseRst_doutReads (s : State) : (s.releaseRst).doutReads = s.doutReads := rfl
@[simp] theorem State.releaseRst_statusReads (s : State) : (s.releaseRst).statusReads = s.statusReads := rfl
@[simp] theorem State.releaseRst_draws (s : State) : (s.releaseRst).draws = s.draws := rfl

end Sys2Proof.Machine
end

