-- ==== Sys2Proof/Laws/Files.lean ====
section
/-! SUPPORT. Reading and writing the register files H and F, and the words compressions give. -/

namespace Sys2Proof.Machine

@[simp] theorem initialWords_alg (m : Alg) : stateWordAlg (initialWords m) = m := by cases m <;> rfl

@[simp] theorem compress_alg (w : StateWords) (b : Block) : stateWordAlg (compress w b) = stateWordAlg w := by
  cases w <;> simp only [compress, stateWordAlg]

@[simp] theorem stateWordList_length (w : StateWords) :
    (stateWordList w).length = stateWordCount (stateWordAlg w) := by
  cases w <;> rfl

/-- What is read has the words of the algorithm that reads. -/
theorem readFile_alg {m : Alg} {r : RegFile} {w : StateWords} (h : readFile m r = some w) :
    stateWordAlg w = m := by
  cases m <;> simp only [readFile] at h <;> split at h <;> cases h <;> rfl

/-- Writing back what was read changes nothing. -/
theorem writeFile_of_readFile {m : Alg} {r : RegFile} {w : StateWords} (h : readFile m r = some w) :
    writeFile w r = r := by
  cases r
  cases m <;> simp only [readFile] at h <;> split at h <;> cases h <;> simp_all [writeFile]

theorem readFile_writeFile {m : Alg} {w : StateWords} (h : stateWordAlg w = m) (r : RegFile) :
    readFile m (writeFile w r) = some w := by
  subst h
  cases w <;> rfl

theorem writeFile_writeFile {w w' : StateWords} (h : stateWordAlg w = stateWordAlg w') (r : RegFile) :
    writeFile w' (writeFile w r) = writeFile w' r := by
  cases w <;> cases w' <;> first | rfl | cases h

theorem writeFile_freshFile {w w' : StateWords} (h : stateWordAlg w = stateWordAlg w') :
    writeFile w' (freshFile w) = freshFile w' := writeFile_writeFile h _

theorem fileHolds_freshFile {m : Alg} {w : StateWords} (h : stateWordAlg w = m) : FileHolds m (freshFile w) :=
  ⟨w, readFile_writeFile h _, rfl⟩

theorem compressBytes_alg {w w' : StateWords} {d : List Byte} (h : compressBytes w d = .ok w') :
    stateWordAlg w' = stateWordAlg w := by
  simp only [compressBytes] at h
  split at h
  · cases h
  · simp only [Except.ok.injEq] at h
    simp [← h]

theorem compressAll_alg {w w' : StateWords} {ds : List (List Byte)} (h : compressAll w ds = .ok w') :
    stateWordAlg w' = stateWordAlg w := by
  induction ds generalizing w with
  | nil =>
    simp only [compressAll, Except.ok.injEq] at h
    rw [h]
  | cons d ds ih =>
    simp only [compressAll] at h
    split at h
    · cases h
    · rename_i u hu
      rw [ih h, compressBytes_alg hu]

end Sys2Proof.Machine
end

