-- ==== Sys2Proof/Laws/Blocks.lean ====
section
/-! SUPPORT. Splitting a byte string into blocks, and compressing the pieces in order. -/

namespace Sys2Proof.Machine

@[simp] theorem takePieces_length (n : Nat) (d : List Byte) : (takePieces n d).length = n := by
  induction n generalizing d with
  | zero => rfl
  | succ n ih => simp [takePieces, ih]

theorem takePieces_flatten (n : Nat) (d : List Byte) : (takePieces n d).flatten = d.take (64 * n) := by
  induction n generalizing d with
  | zero => simp [takePieces]
  | succ n ih =>
    rw [takePieces, List.flatten_cons, ih, show 64 * (n + 1) = 64 + 64 * n by ring, List.take_add]

theorem takePieces_sizes {n : Nat} {d : List Byte} (h : 64 * n ≤ d.length) :
    ∀ x ∈ takePieces n d, x.length = 64 := by
  induction n generalizing d with
  | zero => simp [takePieces]
  | succ n ih =>
    intro x hx
    simp only [takePieces, List.mem_cons] at hx
    rcases hx with rfl | hx
    · simp
      omega
    · exact ih (by simp; omega) x hx

theorem takePieces_append {n : Nat} {d : List Byte} (h : 64 * n ≤ d.length) (e : List Byte) (k : Nat) :
    takePieces (n + k) (d ++ e) = takePieces n d ++ takePieces k (d.drop (64 * n) ++ e) := by
  induction n generalizing d with
  | zero => simp [takePieces]
  | succ n ih =>
    rw [show n + 1 + k = (n + k) + 1 by ring, takePieces, takePieces, List.take_append_of_le_length (by omega),
      List.drop_append_of_le_length (by omega), ih (by simp; omega), List.drop_drop, List.cons_append]
    rw [show 64 + 64 * n = 64 * (n + 1) by omega]

@[simp] theorem fullBlocks_length (d : List Byte) : (fullBlocks d).length = d.length / 64 := by
  simp [fullBlocks]

theorem fullBlocks_sizes (d : List Byte) : ∀ x ∈ fullBlocks d, x.length = 64 :=
  takePieces_sizes (by omega)

@[simp] theorem leftover_length (d : List Byte) : (leftover d).length = d.length % 64 := by
  simp only [leftover, List.length_drop]
  omega

/-- No byte is lost: the blocks and the tail are the byte string. -/
theorem fullBlocks_flatten_leftover (d : List Byte) : (fullBlocks d).flatten ++ leftover d = d := by
  rw [fullBlocks, takePieces_flatten, leftover, List.take_append_drop]

theorem fullBlocks_of_short {d : List Byte} (h : d.length < 64) : fullBlocks d = [] := by
  rw [fullBlocks, Nat.div_eq_of_lt h]
  rfl

theorem leftover_of_short {d : List Byte} (h : d.length < 64) : leftover d = d := by
  rw [leftover, Nat.div_eq_of_lt h]
  rfl

/-- The blocks of two byte strings together: those of the first, then those of its tail and the second. -/
theorem fullBlocks_append (d e : List Byte) :
    fullBlocks (d ++ e) = fullBlocks d ++ fullBlocks (leftover d ++ e) := by
  have hq : (d ++ e).length / 64 = d.length / 64 + (leftover d ++ e).length / 64 := by
    simp only [List.length_append, leftover_length]
    omega
  rw [fullBlocks, hq, takePieces_append (by omega)]
  rfl

theorem leftover_append (d e : List Byte) : leftover (d ++ e) = leftover (leftover d ++ e) := by
  have hq : (d ++ e).length / 64 = d.length / 64 + (leftover d ++ e).length / 64 := by
    simp only [List.length_append, leftover_length]
    omega
  have hd : leftover d ++ e = (d ++ e).drop (64 * (d.length / 64)) := by
    rw [List.drop_append_of_le_length (by omega)]
    rfl
  rw [leftover, hq, Nat.mul_add, ← List.drop_drop, ← hd]
  rfl

theorem fullBlocks_block_append {b : List Byte} (h : b.length = 64) (d : List Byte) :
    fullBlocks (b ++ d) = b :: fullBlocks d := by
  have hl : leftover b = [] := List.drop_of_length_le (by omega)
  rw [fullBlocks_append, hl]
  simp [fullBlocks, h, takePieces, List.take_of_length_le (le_of_eq h)]

theorem leftover_block_append {b : List Byte} (h : b.length = 64) (d : List Byte) :
    leftover (b ++ d) = leftover d := by
  have hl : leftover b = [] := List.drop_of_length_le (by omega)
  rw [leftover_append, hl, List.nil_append]

theorem compressBytes_ok (w : StateWords) {d : List Byte} (h : d.length = 64) :
    compressBytes w d = .ok (compress w ⟨d, h⟩) := by
  simp [compressBytes, formBlock, h]

/-- Pieces of 64 bytes always compress. -/
theorem compressAll_ok (w : StateWords) {ds : List (List Byte)} (h : ∀ x ∈ ds, x.length = 64) :
    ∃ w', compressAll w ds = .ok w' := by
  induction ds generalizing w with
  | nil => exact ⟨w, rfl⟩
  | cons d ds ih =>
    simp only [compressAll, compressBytes_ok w (h d (List.mem_cons_self ..))]
    exact ih _ fun x hx => h x (List.mem_cons_of_mem _ hx)

theorem compressAll_append (w : StateWords) (ds es : List (List Byte)) :
    compressAll w (ds ++ es) =
      match compressAll w ds with
      | .error e => .error e
      | .ok u => compressAll u es := by
  induction ds generalizing w with
  | nil => rfl
  | cons d ds ih =>
    simp only [List.cons_append, compressAll]
    cases compressBytes w d with
    | error e => rfl
    | ok u => exact ih u

end Sys2Proof.Machine
end

