-- ==== Sys2Proof/Laws/Buffer.lean ====
section
/-! SUPPORT. The input buffer: what writeBytes, appendBuf and refillBuf store, and what is read back. -/

namespace Sys2Proof.Machine

theorem writeBytes_get (buf : Vector (Option Byte) 64) (i : Nat) (d : List Byte) (j : Nat) (hj : j < 64) :
    (writeBytes buf i d)[j] = if i ≤ j ∧ j < i + d.length then d[j - i]? else buf[j] := by
  induction d generalizing buf i with
  | nil =>
    rw [if_neg (by simp)]
    rfl
  | cons b bs ih =>
    rw [writeBytes, ih, Vector.getElem_setIfInBounds]
    simp only [List.length_cons]
    rcases Nat.lt_trichotomy j i with h | h | h
    · rw [if_neg (by omega), if_neg (by omega), if_neg (by omega)]
    · subst h
      rw [if_neg (by omega), if_pos rfl, if_pos (by omega)]
      simp
    · by_cases h2 : j < i + 1 + bs.length
      · rw [if_pos (by omega), if_pos (by omega), show j - i = (j - (i + 1)) + 1 by omega,
          List.getElem?_cons_succ]
      · rw [if_neg (by omega), if_neg (by omega), if_neg (by omega)]

theorem allWritten_eq_some {es : List (Option Byte)} {bs : List Byte} :
    allWritten es = some bs ↔ es = bs.map some := by
  induction es generalizing bs with
  | nil => cases bs <;> simp [allWritten]
  | cons e es ih =>
    cases e with
    | none => cases bs <;> simp [allWritten]
    | some b =>
      simp only [allWritten]
      cases h : allWritten es with
      | none =>
        cases bs with
        | nil => simp
        | cons c cs =>
          simp only [List.map_cons, List.cons.injEq, Option.some.injEq, reduceCtorEq, false_iff, not_and]
          intro _ h2
          rw [ih.2 h2] at h
          cases h
      | some cs =>
        rw [ih.1 h]
        cases bs with
        | nil => simp
        | cons c ds =>
          simp only [Option.some.injEq, List.cons.injEq, List.map_cons]
          exact and_congr_right fun _ => (List.map_inj_right fun _ _ => Option.some.inj).symm

/-- The unprocessed bytes are BUF[0..BUFLEN) (R37). -/
theorem unprocessed_eq_some {s : State} {r : List Byte} :
    s.unprocessed = some r ↔ s.buf.toList.take s.buflen.toNat = r.map some := allWritten_eq_some

theorem unprocessed_length {s : State} {r : List Byte} (h : s.unprocessed = some r) :
    r.length = s.buflen.toNat := by
  have := congrArg List.length (unprocessed_eq_some.1 h)
  have := s.buflen.isLt
  simp at *
  omega

theorem unprocessed_iff_get {s : State} {r : List Byte} :
    s.unprocessed = some r ↔
      r.length = s.buflen.toNat ∧ ∀ (i : Nat) (h : i < 64), i < s.buflen.toNat → s.buf[i] = r[i]? := by
  have hb := s.buflen.isLt
  constructor
  · intro h
    refine ⟨unprocessed_length h, fun i hi hlt => ?_⟩
    have e := congrArg (fun l => l[i]?) (unprocessed_eq_some.1 h)
    simp only [List.getElem?_take, if_pos hlt, List.getElem?_map] at e
    have hl := unprocessed_length h
    rw [List.getElem?_eq_getElem (by simp; omega)] at e
    rw [List.getElem?_eq_getElem (by omega)] at e ⊢
    simpa using e
  · rintro ⟨hl, h⟩
    rw [unprocessed_eq_some]
    apply List.ext_getElem
    · simp
      omega
    · intro i h1 h2
      simp only [List.length_map] at h2
      have := h i (by omega) (by omega)
      rw [List.getElem?_eq_getElem h2] at this
      simpa using this

theorem emptyBuf_get (j : Nat) (hj : j < 64) : emptyBuf[j] = none := by simp [emptyBuf]

theorem buflen_refillBuf {d : List Byte} (h : d.length < 64) (s : State) :
    (s.refillBuf d).buflen.toNat = d.length := by
  simp
  omega

theorem buflen_appendBuf {d : List Byte} {s : State} (h : s.buflen.toNat + d.length < 64) :
    (s.appendBuf d).buflen.toNat = s.buflen.toNat + d.length := by
  simp
  omega

theorem unprocessed_refillBuf {d : List Byte} (h : d.length < 64) (s : State) :
    (s.refillBuf d).unprocessed = some d := by
  rw [unprocessed_iff_get, buflen_refillBuf h]
  refine ⟨rfl, fun i hi hlt => ?_⟩
  rw [State.refillBuf_buf, writeBytes_get _ _ _ _ hi, if_pos (by omega)]
  rfl

theorem unprocessed_appendBuf {d r : List Byte} {s : State} (hr : s.unprocessed = some r)
    (h : s.buflen.toNat + d.length < 64) : (s.appendBuf d).unprocessed = some (r ++ d) := by
  obtain ⟨hl, hg⟩ := unprocessed_iff_get.1 hr
  rw [unprocessed_iff_get, buflen_appendBuf h]
  refine ⟨by simp [hl], fun i hi hlt => ?_⟩
  rw [State.appendBuf_buf, writeBytes_get _ _ _ _ hi]
  by_cases hc : i < s.buflen.toNat
  · rw [if_neg (by omega), hg i hi hc, List.getElem?_append_left (by omega)]
  · rw [if_pos (by omega), List.getElem?_append_right (by omega), hl]

/-- Writing r and then d behind it is writing r ++ d. -/
theorem writeBytes_append (buf : Vector (Option Byte) 64) (i : Nat) (r d : List Byte) :
    writeBytes (writeBytes buf i r) (i + r.length) d = writeBytes buf i (r ++ d) := by
  induction r generalizing buf i with
  | nil => rfl
  | cons b r ih =>
    rw [List.cons_append, writeBytes, writeBytes, ← ih]
    congr 1
    simp only [List.length_cons]
    omega

/-- A buffer that meets the invariant holds its unprocessed bytes and nothing else (R37). -/
theorem buf_of_bufWritten {s : State}
    (h : ∀ i : Fin 64, (s.buf[i.val]).isSome = decide (i.val < s.buflen.toNat)) :
    ∃ r, s.unprocessed = some r ∧ s.buf = writeBytes emptyBuf 0 r := by
  have hb := s.buflen.isLt
  refine ⟨(s.buf.toList.take s.buflen.toNat).map (fun e => e.getD 0), ?_, ?_⟩
  · rw [unprocessed_iff_get]
    refine ⟨by simp; omega, fun i hi hlt => ?_⟩
    have e := h ⟨i, hi⟩
    simp only [decide_eq_true hlt, Option.isSome_iff_exists] at e
    obtain ⟨b, hb⟩ := e
    simp [hlt, hi, hb]
  · apply Vector.ext
    intro i hi
    rw [writeBytes_get _ _ _ _ hi]
    have e := h ⟨i, hi⟩
    by_cases hlt : i < s.buflen.toNat
    · rw [if_pos (by simp; omega)]
      simp only [decide_eq_true hlt, Option.isSome_iff_exists] at e
      obtain ⟨b, hb⟩ := e
      simp [hlt, hi, hb]
    · rw [if_neg (by simp; omega), emptyBuf_get]
      simpa [hlt] using e

/-- BUF with r at its start and ⊥ behind it. -/
theorem isSome_writeBytes_emptyBuf (r : List Byte) (i : Nat) (hi : i < 64) :
    ((writeBytes emptyBuf 0 r)[i]).isSome = decide (i < r.length) := by
  rw [writeBytes_get _ _ _ _ hi, emptyBuf_get _ hi]
  by_cases h : i < r.length <;> simp [h]

end Sys2Proof.Machine
end

