-- ==== Sys2Proof/Laws/Encoding.lean ====
section
/-! SUPPORT. The fields of a command word: of one built from its fields, and of any word. -/

namespace Sys2Proof

theorem shiftLeft_or_eq_add (x y n : Nat) (h : y < 2 ^ n) : x <<< n ||| y = x * 2 ^ n + y := by
  rw [Nat.shiftLeft_eq, Nat.mul_comm]
  exact (Nat.two_pow_add_eq_or_of_lt h x).symm

theorem commandWord_toNat (op : Opcode) (a : BitVec 1) (l : BitVec 16) :
    (commandWord op a l).toNat = (opcodeBits op).toNat * 2 ^ 24 + a.toNat * 2 ^ 16 + l.toNat := by
  simp only [commandWord, BitVec.toNat_append]
  rw [shiftLeft_or_eq_add _ _ _ l.isLt, shiftLeft_or_eq_add _ _ _ a.isLt,
    shiftLeft_or_eq_add _ _ _ (by decide)]
  simp
  omega

@[simp] theorem opcField_commandWord (op : Opcode) (a : BitVec 1) (l : BitVec 16) :
    opcField (commandWord op a l) = opcodeBits op := by
  apply BitVec.eq_of_toNat_eq
  have := a.isLt
  have := l.isLt
  have := (opcodeBits op).isLt
  simp only [opcField, BitVec.extractLsb'_toNat, commandWord_toNat, Nat.shiftRight_eq_div_pow]
  omega

@[simp] theorem rsvField_commandWord (op : Opcode) (a : BitVec 1) (l : BitVec 16) :
    rsvField (commandWord op a l) = 0 := by
  apply BitVec.eq_of_toNat_eq
  have := a.isLt
  have := l.isLt
  simp only [rsvField, BitVec.extractLsb'_toNat, commandWord_toNat, Nat.shiftRight_eq_div_pow]
  simp
  omega

@[simp] theorem algField_commandWord (op : Opcode) (a : BitVec 1) (l : BitVec 16) :
    algField (commandWord op a l) = a := by
  apply BitVec.eq_of_toNat_eq
  have := a.isLt
  have := l.isLt
  simp only [algField, BitVec.extractLsb'_toNat, commandWord_toNat, Nat.shiftRight_eq_div_pow]
  omega

@[simp] theorem lenField_commandWord (op : Opcode) (a : BitVec 1) (l : BitVec 16) :
    lenField (commandWord op a l) = l := by
  apply BitVec.eq_of_toNat_eq
  have := l.isLt
  simp only [lenField, BitVec.extractLsb'_toNat, commandWord_toNat, Nat.shiftRight_eq_div_pow]
  omega

/-- A word is its four fields (R101). -/
theorem word_toNat_fields (w : Word) :
    w.toNat = (opcField w).toNat * 2 ^ 24 + (rsvField w).toNat * 2 ^ 17 + (algField w).toNat * 2 ^ 16 +
      (lenField w).toNat := by
  have := w.isLt
  simp only [opcField, rsvField, algField, lenField, BitVec.extractLsb'_toNat, Nat.shiftRight_eq_div_pow]
  omega

theorem word_eq_of_fields {v w : Word} (h1 : opcField v = opcField w) (h2 : rsvField v = rsvField w)
    (h3 : algField v = algField w) (h4 : lenField v = lenField w) : v = w := by
  apply BitVec.eq_of_toNat_eq
  rw [word_toNat_fields v, word_toNat_fields w, h1, h2, h3, h4]

@[simp] theorem opcodeOfBits_opcodeBits (op : Opcode) : opcodeOfBits (opcodeBits op) = some op := by
  cases op <;> rfl

theorem opcodeOfBits_eq_some (op : Opcode) (b : BitVec 8) : opcodeOfBits b = some op ↔ b = opcodeBits op := by
  cases op <;> revert b <;> decide +kernel

theorem opcodeOfBits_eq_none (b : BitVec 8) : opcodeOfBits b = none ↔ b = 0 ∨ 9 ≤ b.toNat := by
  revert b
  decide +kernel

theorem opcodeBits_injective {o p : Opcode} (h : opcodeBits o = opcodeBits p) : o = p := by
  cases o <;> cases p <;> first | rfl | exact absurd h (by decide)

/-- What the decoder accepts (R101 to R103). -/
theorem decode_eq_ok (w : Word) (i : Instr) :
    decode w = .ok i ↔ ∃ op, opcField w = opcodeBits op ∧ rsvField w = 0 ∧ (algField w = 0 ∨ op = .init) ∧
      (lenField w = 0 ∨ op = .update ∨ op = .compress) ∧
      i = instrOf op (algOfBit (algField w)) (lenField w).toNat := by
  unfold decode
  split
  · rename_i h
    constructor
    · intro h'
      cases h'
    · rintro ⟨op, h', -⟩
      rw [h'] at h
      simp at h
  · rename_i op ho
    have e := (opcodeOfBits_eq_some _ _).1 ho
    constructor
    · intro h
      split at h
      · cases h
      split at h
      · cases h
      split at h
      · cases h
      rename_i h1 h2 h3
      refine ⟨op, e, by simpa using h1, by tauto, by tauto, ?_⟩
      simp only [Except.ok.injEq] at h
      exact h.symm
    · rintro ⟨o, h1, h2, h3, h4, rfl⟩
      obtain rfl := opcodeBits_injective (h1.symm.trans e)
      rw [if_neg (by simpa using h2), if_neg (by tauto), if_neg (by tauto)]

/-- A word tested against a mask is tested field by field. -/
theorem mask_eq_iff_fields (w m v : Word) :
    w &&& m = v ↔ opcField w &&& opcField m = opcField v ∧ rsvField w &&& rsvField m = rsvField v ∧
      algField w &&& algField m = algField v ∧ lenField w &&& lenField m = lenField v := by
  constructor
  · rintro rfl
    simp only [opcField, rsvField, algField, lenField, BitVec.extractLsb'_and, and_self]
  · rintro ⟨a, b, c, d⟩
    apply word_eq_of_fields <;>
      simp_all only [opcField, rsvField, algField, lenField, BitVec.extractLsb'_and]

end Sys2Proof
end

