-- ==== Sys2Proof/Laws/Bytes.lean ====
section
/-! SUPPORT. be32 and be32_bytes are inverse, and be32 is the big-endian number (00_scope.md R10). -/

namespace Sys2Proof.Machine

theorem be32_toNat (a b c d : Byte) :
    (be32 a b c d).toNat = a.toNat * 2 ^ 24 + b.toNat * 2 ^ 16 + c.toNat * 2 ^ 8 + d.toNat := by
  simp only [be32, BitVec.toNat_append]
  rw [shiftLeft_or_eq_add _ _ _ d.isLt, shiftLeft_or_eq_add _ _ _ c.isLt, shiftLeft_or_eq_add _ _ _ b.isLt]
  omega

@[simp] theorem be32Bytes_be32 (a b c d : Byte) : be32Bytes (be32 a b c d) = [a, b, c, d] := by
  have := a.isLt
  have := b.isLt
  have := c.isLt
  have := d.isLt
  simp only [be32Bytes, List.cons.injEq, and_true]
  refine ⟨?_, ?_, ?_, ?_⟩ <;> apply BitVec.eq_of_toNat_eq <;>
    simp only [BitVec.extractLsb'_toNat, be32_toNat, Nat.shiftRight_eq_div_pow] <;> omega

@[simp] theorem be32_of_bytes (x : Word) :
    be32 (x.extractLsb' 24 8) (x.extractLsb' 16 8) (x.extractLsb' 8 8) (x.extractLsb' 0 8) = x := by
  apply BitVec.eq_of_toNat_eq
  have := x.isLt
  simp only [be32_toNat, BitVec.extractLsb'_toNat, Nat.shiftRight_eq_div_pow]
  omega

@[simp] theorem be32Bytes_length (x : Word) : (be32Bytes x).length = 4 := rfl

end Sys2Proof.Machine
end

