-- ==== Sys2Proof/Laws/Ops.lean ====
section
/-! SUPPORT. What the shared operations can do, once each: the phase check, the end of a command,
payload assembly, compression into the state, and absorb. -/

namespace Sys2Proof.Machine

/-- Everything a command behind the phase check can answer as a next state. -/
theorem whenActive_eq_next {s t : State} {run : Result} :
    whenActive s run = .next t ↔
      (s.phase = .halted ∧ t = s.discardWord) ∨ (s.phase = .uninit ∧ t = s.raiseFault .notInit) ∨
      (s.phase = .active ∧ run = .next t) := by
  unfold whenActive
  cases h : s.phase <;> simp [eq_comm]

theorem whenActive_active {s : State} (h : s.phase = .active) (run : Result) : whenActive s run = run := by
  simp only [whenActive, h]

theorem whenActive_uninit {s : State} (h : s.phase = .uninit) (run : Result) :
    whenActive s run = .next (s.raiseFault .notInit) := by
  simp only [whenActive, h]

theorem whenActive_halted {s : State} (h : s.phase = .halted) (run : Result) :
    whenActive s run = .next s.discardWord := by
  simp only [whenActive, h]

/-- A command behind the phase check faults only where its own effect does. -/
theorem whenActive_eq_fault {s : State} {run : Result} {r : Fault} :
    whenActive s run = .fault r ↔ s.phase = .active ∧ run = .fault r := by
  unfold whenActive
  cases h : s.phase <;> simp

/-- Everything the end of a command can answer as a next state. -/
theorem conclude_eq_next {s t : State} {k : Nat} {x : Except Abort State} :
    conclude s k x = .next t ↔
      (∃ u, x = .ok u ∧ t = u.consume k) ∨ (x = .error .blockSize ∧ t = s.raiseFault .blockSize) := by
  unfold conclude
  rcases x with (_ | _) | u <;> simp [eq_comm]

theorem conclude_eq_fault {s : State} {k : Nat} {x : Except Abort State} {r : Fault} :
    conclude s k x = .fault r ↔ x = .error .bottom := by
  cases r
  unfold conclude
  rcases x with (_ | _) | u <;> simp

/-! ### Payload -/

theorem payload_eq_some {s : State} {k : Nat} {p : List Word} :
    s.payload k = some p ↔ k ≤ s.cmd.length - 1 ∧ p = (s.cmd.drop 1).take k := by
  simp [State.payload, eq_comm]

theorem payload_length {s : State} {k : Nat} {p : List Word} (h : s.payload k = some p) : p.length = k := by
  obtain ⟨h1, rfl⟩ := payload_eq_some.1 h
  simp
  omega

theorem payload_isNone {s : State} {k : Nat} : (s.payload k).isNone = decide (s.cmd.length - 1 < k) := by
  by_cases h : k ≤ s.cmd.length - 1
  · simp [State.payload, h]
  · simp [State.payload, h]
    omega

theorem flatMap_be32Bytes_length (p : List Word) : (p.flatMap be32Bytes).length = 4 * p.length := by
  induction p with
  | nil => rfl
  | cons x p ih =>
    simp only [List.flatMap_cons, List.length_append, ih, List.length_cons, be32Bytes]
    simp
    omega

theorem payloadBytes_length {p : List Word} {n : Nat} (h : p.length = wordsForBytes n) :
    (payloadBytes p n).length = n := by
  simp only [payloadBytes, List.length_take, flatMap_be32Bytes_length, h, wordsForBytes]
  omega

/-! ### Compression into the state -/

/-- The one way a compression into H succeeds. -/
theorem compressIntoH_eq_ok {s t : State} {d : List Byte} :
    s.compressIntoH d = .ok t ↔
      ∃ w w', readFile s.mode s.h = some w ∧ compressBytes w d = .ok w' ∧
        t = { s with h := writeFile w' s.h } := by
  unfold State.compressIntoH
  cases hw : readFile s.mode s.h with
  | none => simp
  | some w =>
    cases hc : compressBytes w d with
    | error e => simp [hc]
    | ok w' => simp [hc, eq_comm]

/-- compress_block: H is compressed and PROCESSED advances by 64 (R206). -/
theorem compressBlock_eq {s : State} {d : List Byte} {w w' : StateWords}
    (hw : readFile s.mode s.h = some w) (hc : compressBytes w d = .ok w') :
    s.compressBlock d = .ok { s with h := writeFile w' s.h, processed := s.processed + 64 } := by
  simp only [State.compressBlock, State.compressIntoH, hw, hc]

/-- The blocks of one command, fed in order, are one compression of them all and one advance of
PROCESSED (R206, R207). -/
theorem feedBlocks_eq {s : State} {ds : List (List Byte)} {w w' : StateWords}
    (hw : readFile s.mode s.h = some w) (hc : compressAll w ds = .ok w') :
    s.feedBlocks ds =
      .ok { s with h := writeFile w' s.h, processed := s.processed + BitVec.ofNat 64 (64 * ds.length) } := by
  induction ds generalizing s w with
  | nil =>
    simp only [compressAll, Except.ok.injEq] at hc
    subst hc
    simp [State.feedBlocks, writeFile_of_readFile hw]
  | cons d ds ih =>
    simp only [compressAll] at hc
    cases hb : compressBytes w d with
    | error e => simp [hb] at hc
    | ok u =>
      simp only [hb] at hc
      have ha := compressBytes_alg hb
      have hm := readFile_alg hw
      simp only [State.feedBlocks, compressBlock_eq hw hb]
      rw [ih (readFile_writeFile (ha.trans hm) _) hc]
      simp only [writeFile_writeFile (compressAll_alg hc).symm]
      congr 2
      rw [List.length_cons, Nat.mul_add, BitVec.ofNat_add, BitVec.add_assoc, BitVec.add_comm (BitVec.ofNat 64 (64 * ds.length))]
      rfl

/-- absorb on a state whose buffered bytes and state words are written: the blocks of the buffered and
the new bytes together are compressed in order, and the tail is buffered (R206, R207). -/
theorem absorb_eq {s : State} {d r : List Byte} {w : StateWords} (hr : s.unprocessed = some r)
    (hw : readFile s.mode s.h = some w) :
    ∃ w', compressAll w (fullBlocks (r ++ d)) = .ok w' ∧
      s.absorb d = .ok { s with
        h := writeFile w' s.h
        processed := s.processed + BitVec.ofNat 64 (64 * ((r ++ d).length / 64))
        buf := if (r ++ d).length < 64 then writeBytes s.buf r.length d
          else writeBytes emptyBuf 0 (leftover (r ++ d))
        buflen := BitVec.ofNat 6 (leftover (r ++ d)).length } := by
  have hl := unprocessed_length hr
  have hb := s.buflen.isLt
  unfold State.absorb
  by_cases h1 : s.buflen.toNat + d.length < 64
  · have h2 : (r ++ d).length < 64 := by simp; omega
    refine ⟨w, by rw [fullBlocks_of_short h2]; rfl, ?_⟩
    rw [if_pos h1, if_pos h2, writeFile_of_readFile hw, Nat.div_eq_of_lt h2, hl, leftover_of_short h2]
    simp only [State.appendBuf, List.length_append, hl, BitVec.ofNat_add]
    simp
  · have h2 : ¬ (r ++ d).length < 64 := by simp; omega
    rw [if_neg h1, if_neg h2]
    obtain ⟨w', hw'⟩ := compressAll_ok w (fullBlocks_sizes (r ++ d))
    refine ⟨w', hw', ?_⟩
    by_cases h0 : s.buflen.toNat = 0
    · obtain rfl : r = [] := List.eq_nil_of_length_eq_zero (by omega)
      rw [if_pos h0]
      rw [List.nil_append] at hw' ⊢
      simp only [State.absorbAligned, feedBlocks_eq hw hw', State.refillBuf, fullBlocks_length]
    · rw [if_neg h0, hr]
      have hsz : (r ++ d.take (64 - s.buflen.toNat)).length = 64 := by simp; omega
      have hsplit : r ++ d = (r ++ d.take (64 - s.buflen.toNat)) ++ d.drop (64 - s.buflen.toNat) := by
        rw [List.append_assoc, List.take_append_drop]
      have hfb := hw'
      rw [hsplit, fullBlocks_block_append hsz, compressAll, compressBytes_ok w hsz] at hfb
      have hm := readFile_alg hw
      simp only [compressBlock_eq hw (compressBytes_ok w hsz), State.absorbAligned]
      rw [feedBlocks_eq (readFile_writeFile (by simp [hm]) _) hfb]
      simp only [writeFile_writeFile (compressAll_alg hfb).symm, State.refillBuf, fullBlocks_length]
      have hn : (r ++ d).length / 64 = 1 + (d.drop (64 - s.buflen.toNat)).length / 64 := by
        simp
        omega
      have hlo : leftover (r ++ d) = leftover (d.drop (64 - s.buflen.toNat)) := by
        rw [hsplit, leftover_block_append hsz]
      rw [hlo, hn, Nat.mul_add, BitVec.ofNat_add, BitVec.add_assoc]
      rfl

/-- absorb on a state whose BUF holds r and nothing else (R37): BUF then holds the new remainder and
nothing else. -/
theorem absorb_eq_clean {s : State} {d r : List Byte} {w : StateWords} (hr : s.unprocessed = some r)
    (hbuf : s.buf = writeBytes emptyBuf 0 r) (hw : readFile s.mode s.h = some w) :
    ∃ w', compressAll w (fullBlocks (r ++ d)) = .ok w' ∧
      s.absorb d = .ok { s with
        h := writeFile w' s.h
        processed := s.processed + BitVec.ofNat 64 (64 * ((r ++ d).length / 64))
        buf := writeBytes emptyBuf 0 (leftover (r ++ d))
        buflen := BitVec.ofNat 6 (leftover (r ++ d)).length } := by
  obtain ⟨w', hc, ha⟩ := absorb_eq (d := d) hr hw
  refine ⟨w', hc, ?_⟩
  rw [ha]
  by_cases h : (r ++ d).length < 64
  · have e : writeBytes s.buf r.length d = writeBytes emptyBuf 0 (leftover (r ++ d)) := by
      have := writeBytes_append emptyBuf 0 r d
      rw [Nat.zero_add] at this
      rw [hbuf, this, leftover_of_short h]
    rw [if_pos h, e]
  · rw [if_neg h]

/-! ### Frames -/

theorem compressBlock_frame {s t : State} {d : List Byte} (h : s.compressBlock d = .ok t) :
    t = { s with h := t.h, processed := t.processed } := by
  unfold State.compressBlock at h
  split at h
  · cases h
  · rename_i u hu
    obtain ⟨w, w', -, -, rfl⟩ := compressIntoH_eq_ok.1 hu
    cases h
    rfl

theorem feedBlocks_frame {s t : State} {ds : List (List Byte)} (h : s.feedBlocks ds = .ok t) :
    t = { s with h := t.h, processed := t.processed } := by
  induction ds generalizing s with
  | nil =>
    cases h
    rfl
  | cons d ds ih =>
    simp only [State.feedBlocks] at h
    split at h
    · cases h
    · rename_i u hu
      have e := ih h
      rw [compressBlock_frame hu] at e
      exact e

theorem absorbAligned_frame {s t : State} {d : List Byte} (h : s.absorbAligned d = .ok t) :
    t = { s with h := t.h, processed := t.processed, buf := t.buf, buflen := t.buflen } := by
  unfold State.absorbAligned at h
  split at h
  · cases h
  · rename_i u hu
    cases h
    rw [feedBlocks_frame hu]
    rfl

/-- absorb writes H, PROCESSED, BUF and BUFLEN and nothing else (R205). -/
theorem absorb_frame {s t : State} {d : List Byte} (h : s.absorb d = .ok t) :
    t = { s with h := t.h, processed := t.processed, buf := t.buf, buflen := t.buflen } := by
  unfold State.absorb at h
  split at h
  · cases h
    rfl
  · split at h
    · exact absorbAligned_frame h
    · split at h
      · cases h
      · split at h
        · cases h
        · rename_i u hu
          have e := absorbAligned_frame h
          rw [compressBlock_frame hu] at e
          exact e

/-- DIGEST and READH append words of the file they read and change nothing else (R185, R240). -/
theorem outputFile_eq_ok {s t : State} {r : RegFile} :
    s.outputFile r = .ok t ↔ ∃ w, readFile s.mode r = some w ∧ t = s.pushOut w := by
  unfold State.outputFile
  cases readFile s.mode r <;> simp [eq_comm]

/-- FINALIZE sets F and FVALID and changes nothing else (R215). -/
theorem finalized_eq_ok {s t : State} :
    s.finalized = .ok t ↔ ∃ w, s.finalWords = .ok w ∧ t = s.setFinal w := by
  unfold State.finalized
  cases s.finalWords <;> simp [eq_comm]

/-- The words FINALIZE writes have the algorithm of MODE. -/
theorem finalWords_alg {s : State} {w : StateWords} (h : s.finalWords = .ok w) : stateWordAlg w = s.mode := by
  unfold State.finalWords at h
  split at h
  · cases h
  · split at h
    · cases h
    · rename_i u hu
      exact (compressAll_alg h).trans (readFile_alg hu)

end Sys2Proof.Machine
end

