-- ==== Sys2Proof/Laws/PerInstr.lean ====
section
/-! SUPPORT. One family of statements about commands as syntax: the must-be-zero fields of the encoded
command word (30_encoding.md R101, R102). -/

namespace Sys2Proof.Laws.EncodedFields

/-- RSV is 0; ALG is 0 in every command but INIT; LEN is 0 in every command but UPDATE and COMPRESS,
where it is the operand. -/
def Statement (i : Instr) : Prop :=
  wellFormed i = true →
    rsvField (encode i) = 0 ∧
    (algField (encode i) ≠ 0 → ∃ alg, i = .init alg) ∧
    (lenField (encode i)).toNat =
      match i with
      | .update len => len
      | .compress len => len
      | .init _ | .finalize | .digest | .reset | .freset | .readh => 0

theorem init (alg : Alg) : Statement (.init alg) := by
  intro _
  simp [encode]

theorem update (len : Nat) : Statement (.update len) := by
  intro h
  have : len < 65536 := by simpa [wellFormed, lenFits] using h
  simp [encode]
  omega

theorem finalize : Statement .finalize := by
  intro _
  simp [encode]

theorem digest : Statement .digest := by
  intro _
  simp [encode]

theorem reset : Statement .reset := by
  intro _
  simp [encode]

theorem freset : Statement .freset := by
  intro _
  simp [encode]

theorem compress (len : Nat) : Statement (.compress len) := by
  intro h
  have : len < 65536 := by simpa [wellFormed, lenFits] using h
  simp [encode]
  omega

theorem readh : Statement .readh := by
  intro _
  simp [encode]

end Sys2Proof.Laws.EncodedFields
end

