-- ==== Sys2Proof/Laws/Step.lean ====
section
/-! SUPPORT. Everything one step can do, once: whose turn it is, what each command can answer, and what
each access of the host can answer. -/

namespace Sys2Proof.Machine

/-! ### Turns -/

theorem turn_eq_command {s : State} {i : Instr} (h : turn s = .command i) :
    s.rst = false ∧ s.host.head? ≠ some .assertRst ∧ s.phase ≠ .halted ∧ waits i s = false ∧
      ∃ w rest, s.cmd = w :: rest ∧ decode w = .ok i := by
  unfold turn at h
  split at h
  · cases h
  rename_i hr
  obtain ⟨h1, h2⟩ := not_or.1 hr
  split at h
  · cases h
  rename_i w rest hc
  split at h
  · cases h
  all_goals
    rename_i hp
    split at h
    · cases h
    rename_i j hj
    split at h
    · cases h
    cases h
    simp_all

theorem turn_eq_illegal {s : State} (h : turn s = .illegal) :
    s.rst = false ∧ s.host.head? ≠ some .assertRst ∧ s.phase ≠ .halted ∧
      ∃ w rest e, s.cmd = w :: rest ∧ decode w = .error e := by
  unfold turn at h
  split at h
  · cases h
  rename_i hr
  obtain ⟨h1, h2⟩ := not_or.1 hr
  split at h
  · cases h
  rename_i w rest hc
  split at h
  · cases h
  all_goals
    rename_i hp
    split at h
    · rename_i e he
      simp_all
    · split at h <;> cases h

theorem turn_eq_discard {s : State} (h : turn s = .discard) :
    s.rst = false ∧ s.host.head? ≠ some .assertRst ∧ s.phase = .halted ∧ s.cmd ≠ [] := by
  unfold turn at h
  split at h
  · cases h
  rename_i hr
  obtain ⟨h1, h2⟩ := not_or.1 hr
  split at h
  · cases h
  rename_i w rest hc
  split at h
  · simp_all
  all_goals
    split at h
    · cases h
    · split at h <;> cases h

/-- While RST is asserted, or about to be, it is the host's turn (R276, R301). -/
theorem turn_of_rst {s : State} (h : s.rst = true ∨ s.host.head? = some .assertRst) : turn s = .host := by
  unfold turn
  rw [if_pos h]

/-- Whose turn it is at a word of the command stream. -/
theorem turn_at_word {s : State} {w : Word} {rest : List Word} (h1 : s.rst = false)
    (h2 : s.host.head? ≠ some .assertRst) (h3 : s.cmd = w :: rest) :
    turn s =
      match s.phase, decode w with
      | .halted, _ => .discard
      | _, .error _ => .illegal
      | _, .ok i => if waits i s then .host else .command i := by
  cases hp : s.phase <;> cases hd : decode w <;> simp [turn, h1, h2, h3, hp, hd]

/-- In ACTIVE a well-formed word at cpos is the engine's turn exactly when its command is enabled. -/
theorem turn_active {s : State} {w : Word} {rest : List Word} {i : Instr} (h1 : s.rst = false)
    (h2 : s.host.head? ≠ some .assertRst) (h3 : s.cmd = w :: rest) (hp : s.phase = .active)
    (hd : decode w = .ok i) : turn s = if waits i s then .host else .command i := by
  rw [turn_at_word h1 h2 h3, hp, hd]

/-! ### Commands -/

/-- A command that is not enabled changes nothing (R278, R286). -/
theorem exec_of_waits {i : Instr} {s : State} (h : waits i s = true) : exec i s = .next s := by
  unfold waits at h
  cases hp : s.phase <;> simp only [hp] at h
  · cases h
  · cases i <;> simp only [Bool.false_eq_true] at h
    · rename_i len
      simp only [Option.isNone_iff_eq_none] at h
      simp only [exec, execUpdate, whenActive_active hp, h]
    · simp only [Bool.and_eq_true, Bool.not_eq_true'] at h
      simp [exec, execDigest, whenActive_active hp, h.1, h.2]
    · rename_i len
      simp only [Bool.and_eq_true, decide_eq_true_eq, Option.isNone_iff_eq_none] at h
      simp [exec, execCompress, whenActive_active hp, h.1, h.2]
    · simp only [Bool.not_eq_true'] at h
      simp [exec, execReadh, whenActive_active hp, h]
  · cases h

/-- Everything exec can answer as a next state for a command that is enabled, in UNINIT or ACTIVE. -/
inductive ExecCase : Instr → State → State → Prop where
  | init (alg : Alg) {s : State} (h : s.phase ≠ .halted) :
      ExecCase (.init alg) s ((s.initialize alg).consume 1)
  | notInit {i : Instr} {s : State} (h : s.phase = .uninit) (hi : ∀ alg, i ≠ .init alg) :
      ExecCase i s (s.raiseFault .notInit)
  | update (len : Nat) {s u : State} {p : List Word} (h : s.phase = .active)
      (hp : s.payload (wordsForBytes len) = some p) (hu : s.absorb (payloadBytes p len) = .ok u) :
      ExecCase (.update len) s (u.consume (1 + wordsForBytes len))
  | updateBlockSize (len : Nat) {s : State} {p : List Word} (h : s.phase = .active)
      (hp : s.payload (wordsForBytes len) = some p)
      (hu : s.absorb (payloadBytes p len) = .error .blockSize) :
      ExecCase (.update len) s (s.raiseFault .blockSize)
  | finalize {s : State} {w : StateWords} (h : s.phase = .active) (hw : s.finalWords = .ok w) :
      ExecCase .finalize s ((s.setFinal w).consume 1)
  | finalizeBlockSize {s : State} (h : s.phase = .active) (hw : s.finalWords = .error .blockSize) :
      ExecCase .finalize s (s.raiseFault .blockSize)
  | noResult {s : State} (h : s.phase = .active) (hf : s.fvalid = false) :
      ExecCase .digest s (s.raiseFault .noResult)
  | digest {s : State} {w : StateWords} (h : s.phase = .active) (hf : s.fvalid = true)
      (hr : s.hasRoom = true) (hw : readFile s.mode s.f = some w) :
      ExecCase .digest s ((s.pushOut w).consume 1)
  | reset {s : State} (h : s.phase = .active) : ExecCase .reset s (s.freshAccumulator.consume 1)
  | freset {s : State} (h : s.phase = .active) :
      ExecCase .freset s (s.freshAccumulator.discardFinal.consume 1)
  | compressLen (len : Nat) {s : State} (h : s.phase = .active) (hl : len ≠ 64) :
      ExecCase (.compress len) s (s.raiseFault .blockSize)
  | compress {s u : State} {p : List Word} (h : s.phase = .active) (hp : s.payload 16 = some p)
      (hu : s.compressIntoH (payloadBytes p 64) = .ok u) :
      ExecCase (.compress 64) s (u.consume 17)
  | compressBlockSize {s : State} {p : List Word} (h : s.phase = .active) (hp : s.payload 16 = some p)
      (hu : s.compressIntoH (payloadBytes p 64) = .error .blockSize) :
      ExecCase (.compress 64) s (s.raiseFault .blockSize)
  | readh {s : State} {w : StateWords} (h : s.phase = .active) (hr : s.hasRoom = true)
      (hw : readFile s.mode s.h = some w) :
      ExecCase .readh s ((s.pushOut w).consume 1)

/-- The inversion lemma of exec. -/
theorem exec_next_cases {i : Instr} {s t : State} (hw : waits i s = false) (hh : s.phase ≠ .halted)
    (h : exec i s = .next t) : ExecCase i s t := by
  cases i with
  | init alg =>
    simp only [exec, execInit] at h
    split at h
    · contradiction
    all_goals
      cases h
      exact .init alg hh
  | update len =>
    rcases whenActive_eq_next.1 h with ⟨hp, -⟩ | ⟨hp, rfl⟩ | ⟨hp, h⟩
    · contradiction
    · exact .notInit hp (by simp)
    · simp only [waits, hp] at hw
      split at h
      · simp_all
      · rename_i p hp'
        rcases conclude_eq_next.1 h with ⟨u, hu, rfl⟩ | ⟨hu, rfl⟩
        · exact .update len hp hp' hu
        · exact .updateBlockSize len hp hp' hu
  | finalize =>
    rcases whenActive_eq_next.1 h with ⟨hp, -⟩ | ⟨hp, rfl⟩ | ⟨hp, h⟩
    · contradiction
    · exact .notInit hp (by simp)
    · rcases conclude_eq_next.1 h with ⟨u, hu, rfl⟩ | ⟨hu, rfl⟩
      · obtain ⟨w, hw', rfl⟩ := finalized_eq_ok.1 hu
        exact .finalize hp hw'
      · refine .finalizeBlockSize hp ?_
        unfold State.finalized at hu
        split at hu
        · cases hu
          assumption
        · cases hu
  | digest =>
    rcases whenActive_eq_next.1 h with ⟨hp, -⟩ | ⟨hp, rfl⟩ | ⟨hp, h⟩
    · contradiction
    · exact .notInit hp (by simp)
    · simp only [waits, hp] at hw
      split at h
      · cases h
        exact .noResult hp (by assumption)
      · rename_i hf
        split at h
        · simp_all
        · rename_i hr
          rcases conclude_eq_next.1 h with ⟨u, hu, rfl⟩ | ⟨hu, rfl⟩
          · obtain ⟨w, hw', rfl⟩ := outputFile_eq_ok.1 hu
            exact .digest hp (by simpa using hf) (by simpa using hr) hw'
          · unfold State.outputFile at hu
            split at hu <;> cases hu
  | reset =>
    rcases whenActive_eq_next.1 h with ⟨hp, -⟩ | ⟨hp, rfl⟩ | ⟨hp, h⟩
    · contradiction
    · exact .notInit hp (by simp)
    · cases h
      exact .reset hp
  | freset =>
    rcases whenActive_eq_next.1 h with ⟨hp, -⟩ | ⟨hp, rfl⟩ | ⟨hp, h⟩
    · contradiction
    · exact .notInit hp (by simp)
    · cases h
      exact .freset hp
  | compress len =>
    rcases whenActive_eq_next.1 h with ⟨hp, -⟩ | ⟨hp, rfl⟩ | ⟨hp, h'⟩
    · contradiction
    · exact .notInit hp (by simp)
    · simp only [waits, hp] at hw
      split at h'
      · cases h'
        exact .compressLen len hp (by assumption)
      · rename_i hl
        obtain rfl : len = 64 := by simpa using hl
        split at h'
        · simp_all
        · rename_i p hp'
          rcases conclude_eq_next.1 h' with ⟨u, hu, rfl⟩ | ⟨hu, rfl⟩
          · exact .compress hp hp' hu
          · exact .compressBlockSize hp hp' hu
  | readh =>
    rcases whenActive_eq_next.1 h with ⟨hp, -⟩ | ⟨hp, rfl⟩ | ⟨hp, h⟩
    · contradiction
    · exact .notInit hp (by simp)
    · split at h
      · simp_all [waits]
      · rename_i hr
        rcases conclude_eq_next.1 h with ⟨u, hu, rfl⟩ | ⟨hu, rfl⟩
        · obtain ⟨w, hw', rfl⟩ := outputFile_eq_ok.1 hu
          exact .readh hp (by simpa using hr) hw'
        · unfold State.outputFile at hu
          split at hu <;> cases hu

/-! ### The host -/

/-- Everything an access of the host can answer as a next state; s is the state with that access taken
from the host's list. -/
inductive HostCase : HostMove → State → State → Prop where
  | write {m : HostMove} {w : Word} (hm : m = .writeCmd w ∨ m = .busWrite Config.engineBase 4 w) {s : State}
      (h : s.rst = false) :
      HostCase m s { s with cmd := s.cmd ++ [w] }
  | writeDiscarded {m : HostMove} {s : State} (h : s.rst = true) : HostCase m s s
  | readDout {m : HostMove} {s : State} {x : Word} {rest : List Word}
      (hm : m = .readDout ∨ m = .busRead (Config.engineBase + 4) 4) (h : s.out = x :: rest) :
      HostCase m s { s with out := rest, doutReads := s.doutReads ++ [x] }
  | readEmpty {m : HostMove} {s : State} (hm : m = .readDout ∨ m = .busRead (Config.engineBase + 4) 4) (h : s.out = []) :
      HostCase m s { s with doutReads := s.doutReads ++ [Config.emptyDout s.draws], draws := s.draws + 1 }
  | readStatus {m : HostMove} (hm : writesCmd m = false) {s : State} : HostCase m s s.readStatus
  | assertRst {s : State} : HostCase .assertRst s s.assertRst
  | releaseRst {s : State} : HostCase .releaseRst s s.releaseRst

theorem readDout_case {m : HostMove} {s : State} (hm : m = .readDout ∨ m = .busRead (Config.engineBase + 4) 4) :
    HostCase m s s.readDout := by
  unfold State.readDout
  split
  · exact .readEmpty hm (by assumption)
  · exact .readDout hm (by assumption)

/-- The two accesses that write a given word to CMD. -/
theorem writesCmd_of_write {m : HostMove} {w : Word}
    (hm : m = .writeCmd w ∨ m = .busWrite Config.engineBase 4 w) : writesCmd m = true := by
  rcases hm with rfl | rfl <;> simp [writesCmd]

theorem writeCmd_case {m : HostMove} {s : State} {w : Word}
    (hm : m = .writeCmd w ∨ m = .busWrite Config.engineBase 4 w) : HostCase m s (s.writeCmd w) := by
  unfold State.writeCmd
  split
  · exact .writeDiscarded (by assumption)
  · exact .write hm (by simp_all)

/-- The inversion lemma of the host's accesses. -/
theorem hostMove_next_cases {m : HostMove} {s t : State} (h : hostMove m s = .next t) : HostCase m s t := by
  cases m with
  | writeCmd w =>
    cases h
    exact writeCmd_case (.inl rfl)
  | readDout =>
    cases h
    exact readDout_case (.inl rfl)
  | readStatus =>
    cases h
    exact .readStatus rfl
  | assertRst =>
    cases h
    exact .assertRst
  | releaseRst =>
    cases h
    exact .releaseRst
  | busWrite addr width data =>
    simp only [hostMove, State.busWrite] at h
    split at h
    · rename_i hb
      obtain ⟨rfl, rfl⟩ := hb
      cases h
      exact writeCmd_case (.inr rfl)
    · cases h
  | busRead addr width =>
    simp only [hostMove, State.busRead] at h
    split at h
    · rename_i hb
      obtain ⟨rfl, rfl⟩ := hb
      cases h
      exact readDout_case (.inr rfl)
    · split at h
      · cases h
        exact .readStatus rfl
      · cases h

/-- When the CMD port holds the host's writes (R83). -/
theorem writeHeld_iff {s : State} : s.writeHeld = true ↔
    s.rst = false ∧ ∃ w rest i, s.cmd = w :: rest ∧ decode w = .ok i ∧ isOutput i = true ∧ waits i s = true := by
  unfold State.writeHeld
  cases hc : s.cmd with
  | nil => simp
  | cons w rest => cases hd : decode w <;> simp [hd]

/-- The CMD port holds no write while the stream is empty or RST is asserted. -/
theorem writeHeld_of_nil {s : State} (h : s.cmd = []) : s.writeHeld = false := by simp [State.writeHeld, h]
theorem writeHeld_of_rst {s : State} (h : s.rst = true) : s.writeHeld = false := by simp [State.writeHeld, h]

theorem hostBlocked_iff {s : State} : s.hostBlocked = true ↔ HostBlocked s := by
  unfold State.hostBlocked HostBlocked
  cases s.host <;> simp [and_comm]

/-- A list from its first RST on. -/
theorem dropWhile_rst_of_not_mem {l : List HostMove} (h : .assertRst ∉ l) :
    l.dropWhile (fun m => decide (m ≠ .assertRst)) = [] :=
  List.dropWhile_eq_nil_iff.2 fun _ hx => decide_eq_true fun e => h (e ▸ hx)
theorem dropWhile_rst_of_append {pre rest : List HostMove} (h : .assertRst ∉ pre) :
    (pre ++ .assertRst :: rest).dropWhile (fun m => decide (m ≠ .assertRst)) = .assertRst :: rest := by
  rw [List.dropWhile_append, dropWhile_rst_of_not_mem h]
  simp

/-- The accesses of a host that is not blocked. -/
theorem readyHost_of_free {s : State} (h : ¬ HostBlocked s) : s.readyHost = s.host :=
  if_neg (mt hostBlocked_iff.1 h)

/-- The accesses of a blocked host that asserts no RST. -/
theorem readyHost_of_stuck {s : State} (h : HostBlocked s) (hn : .assertRst ∉ s.host) : s.readyHost = [] := by
  rw [State.readyHost, if_pos (hostBlocked_iff.2 h), dropWhile_rst_of_not_mem hn]

/-- The accesses of a blocked host that asserts an RST. -/
theorem readyHost_of_rst {s : State} {pre rest : List HostMove} (h : HostBlocked s)
    (hs : s.host = pre ++ .assertRst :: rest) (hn : .assertRst ∉ pre) : s.readyHost = .assertRst :: rest := by
  rw [State.readyHost, if_pos (hostBlocked_iff.2 h), hs, dropWhile_rst_of_append hn]

/-- A host with no access to make leaves the state as it is. -/
theorem hostStep_of_none {s : State} (h : s.host = [] ∨ (HostBlocked s ∧ .assertRst ∉ s.host)) :
    hostStep s = .next s := by
  have hr : s.readyHost = [] := by
    rcases h with h | ⟨hb, hn⟩
    · rw [readyHost_of_free (fun hb => by obtain ⟨-, m, r, hm, -⟩ := hb; simp [h] at hm), h]
    · exact readyHost_of_stuck hb hn
  simp [hostStep, hr]

/-- A host that is not blocked makes its next access. -/
theorem hostStep_of_free {s : State} {m : HostMove} {rest : List HostMove} (h : s.host = m :: rest)
    (hf : writesCmd m = true → s.writeHeld = false) : hostStep s = hostMove m { s with host := rest } := by
  have hb : ¬ HostBlocked s := by
    rintro ⟨hh, x, r, hx, hw⟩
    rw [h] at hx
    cases hx
    simp [hf hw] at hh
  simp [hostStep, readyHost_of_free hb, h]

/-- A blocked host asserts its next RST. -/
theorem hostStep_of_rst {s : State} {pre rest : List HostMove} (h : HostBlocked s)
    (hs : s.host = pre ++ .assertRst :: rest) (hn : .assertRst ∉ pre) :
    hostStep s = .next ({ s with host := rest } : State).assertRst := by
  simp [hostStep, readyHost_of_rst h hs hn, hostMove]

/-- The inversion lemma of the host's turn: no access, its next one, or the RST behind a held write. -/
theorem hostStep_next_cases {s t : State} (h : hostStep s = .next t) :
    (t = s ∧ (s.host = [] ∨ (HostBlocked s ∧ .assertRst ∉ s.host))) ∨
    (∃ m rest, s.host = m :: rest ∧ (writesCmd m = true → s.writeHeld = false) ∧
      HostCase m { s with host := rest } t) ∨
    (∃ pre rest, HostBlocked s ∧ s.host = pre ++ .assertRst :: rest ∧
      t = ({ s with host := rest } : State).assertRst) := by
  by_cases hb : HostBlocked s
  · by_cases hm : .assertRst ∈ s.host
    · obtain ⟨pre, rest, hs, hn⟩ := List.eq_append_cons_of_mem hm
      rw [hostStep_of_rst hb hs hn] at h
      cases h
      exact .inr (.inr ⟨pre, rest, hb, hs, rfl⟩)
    · rw [hostStep_of_none (.inr ⟨hb, hm⟩)] at h
      cases h
      exact .inl ⟨rfl, .inr ⟨hb, hm⟩⟩
  · cases hs : s.host with
    | nil =>
      rw [hostStep_of_none (.inl hs)] at h
      cases h
      exact .inl ⟨rfl, .inl rfl⟩
    | cons m rest =>
      have hf : writesCmd m = true → s.writeHeld = false := fun hw =>
        Bool.eq_false_iff.2 fun hh => hb ⟨hh, m, rest, hs, hw⟩
      rw [hostStep_of_free hs hf] at h
      exact .inr (.inl ⟨m, rest, rfl, hf, hostMove_next_cases h⟩)

/-! ### The step -/

/-- The inversion lemma of the step: the four kinds of next state. -/
theorem step_next_cases {s t : State} (h : step s = .next t) :
    (turn s = .host ∧ hostStep s = .next t) ∨
    (turn s = .discard ∧ s.phase = .halted ∧ s.cmd ≠ [] ∧ t = s.discardWord) ∨
    (turn s = .illegal ∧ s.phase ≠ .halted ∧ s.cmd ≠ [] ∧ t = s.raiseFault .illegal) ∨
    (∃ i, turn s = .command i ∧ s.cmd ≠ [] ∧ ExecCase i s t) := by
  unfold step at h
  split at h
  · exact .inl ⟨by assumption, h⟩
  · rename_i ht
    obtain ⟨-, -, hp, hc⟩ := turn_eq_discard ht
    cases h
    exact .inr (.inl ⟨ht, hp, hc, rfl⟩)
  · rename_i ht
    obtain ⟨-, -, hp, w, rest, e, hc, -⟩ := turn_eq_illegal ht
    cases h
    exact .inr (.inr (.inl ⟨ht, hp, by simp [hc], rfl⟩))
  · rename_i i ht
    obtain ⟨-, -, hp, hw, w, rest, hc, -⟩ := turn_eq_command ht
    exact .inr (.inr (.inr ⟨i, ht, by simp [hc], exec_next_cases hw hp h⟩))

/-! ### Runs -/

/-- One step and then the rest of a run. -/
theorem run_of_step {s t : State} (h : step s = .next t) (n : Nat) :
    Host.Core.run Sys2Proof.core (n + 1) s = Host.Core.run Sys2Proof.core n t := by
  have hc : Sys2Proof.core.step s = .next t := h
  simp only [Host.Core.run, hc]

/-- A state whose step answers itself runs to itself. -/
theorem run_of_fixed {s : State} (h : step s = .next s) (n : Nat) :
    Host.Core.run Sys2Proof.core n s = .next s := by
  induction n with
  | zero => rfl
  | succ n ih => rw [run_of_step h, ih]

end Sys2Proof.Machine
end

