-- ==== Sys2Proof/Tests/Slice0.lean ====
section
/-! SUPPORT. Tests of single steps and operations, with the expected values of spec/95_test_vectors.md and
of the rules' own examples, and a witness for the hypotheses of each obligation. -/

namespace Sys2Proof.Tests

open Sys2Proof Sys2Proof.Machine

/-! ### Helper states -/

/-- The state after RST and an INIT, with the given words of the command stream still to come. -/
def active (alg : Alg) (cmd : List Word) : State := { State.reset.initialize alg with cpos := 1, cmd := cmd }

/-- An active engine whose BUF holds 61 62 63 ("abc"). -/
def holdingAbc (alg : Alg) (cmd : List Word) : State :=
  { (active alg cmd).appendBuf [0x61, 0x62, 0x63] with cpos := 3 }

/-- An active engine with n words in OUT. -/
def queued (alg : Alg) (n : Nat) (cmd : List Word) : State :=
  { active alg cmd with out := List.replicate n 0 }

/-- A halted engine. -/
def halted (cmd : List Word) : State := (active .sha1 cmd).raiseFault .noResult

/-- An active engine holding a finalized state of zeros. -/
def finalized (alg : Alg) (cmd : List Word) : State :=
  (active alg cmd).setFinal
    (match alg with | .sha1 => .sha1 ⟨1, 2, 3, 4, 5⟩ | .sha256 => .sha256 ⟨1, 2, 3, 4, 5, 6, 7, 8⟩)

/-- Whether an outcome is a next state of which a check holds. -/
def nextHas (r : Host.Outcome State Fault Refusal) (check : State → Bool) : Bool :=
  match r with
  | .next t => check t
  | .fault _ => false
  | .refused _ => false

theorem nextHas_exists {r : Host.Outcome State Fault Refusal} {check : State → Bool}
    (h : nextHas r check = true) : ∃ t, r = .next t ∧ check t = true := by
  cases r with
  | next t => exact ⟨t, rfl, h⟩
  | fault f => cases h
  | refused f => cases h

/-- The state of a command's computation, where it has one. -/
theorem ok_exists {α : Type} {x : Except Abort α} (h : x.isOk = true) : ∃ a, x = .ok a := by
  cases x with
  | ok a => exact ⟨a, rfl⟩
  | error e => cases h

/-! ### WellFormed: a term each check refuses -/

theorem test_update_len_too_large : wellFormed (.update 65536) = false := by decide
theorem test_compress_len_too_large : wellFormed (.compress 65536) = false := by decide
theorem test_largest_update_is_well_formed : wellFormed (.update 65535) = true := by decide

/-! ### Decoding, words written out field by field: OPC, RSV, ALG, LEN (R101, R103, R111) -/

theorem test_decode_init :
    decode 0b00000001_0000000_1_0000000000000000 = .ok (.init .sha256) := by decide
theorem test_decode_update :
    decode 0b00000010_0000000_0_1000000000000011 = .ok (.update 32771) := by decide
theorem test_decode_finalize : decode 0b00000011_0000000_0_0000000000000000 = .ok .finalize := by decide
theorem test_decode_digest : decode 0b00000100_0000000_0_0000000000000000 = .ok .digest := by decide
theorem test_decode_reset : decode 0b00000101_0000000_0_0000000000000000 = .ok .reset := by decide
theorem test_decode_freset : decode 0b00000110_0000000_0_0000000000000000 = .ok .freset := by decide
theorem test_decode_compress :
    decode 0b00000111_0000000_0_0000000001000000 = .ok (.compress 64) := by decide
theorem test_decode_readh : decode 0b00001000_0000000_0_0000000000000000 = .ok .readh := by decide

/-- Section 6: V6.1a to V6.1j. -/
theorem test_illegal_words :
    [(0x00000000 : Word), 0x09000000, 0xff000000, 0x01020000, 0x01800000, 0x03010000, 0x04000001,
      0x05000040, 0x08010000, 0x06000001].map decode =
    [.error .opcode, .error .opcode, .error .opcode, .error .reserved, .error .reserved,
      .error .algorithm, .error .length, .error .length, .error .algorithm, .error .length] := by
  decide

/-- A row of the opcode table read through the host's numbering: COMPRESS and its sixteen payload words. -/
theorem test_table_words : (tableWords 32 0x07000040).length = 17 ∧
    decodeTableWord 32 0x07000040 = some (.compress 64) ∧ decodeTableWord 32 0x09000000 = none := by decide

/-! ### Assembler text (R109; program P1) -/

theorem test_assemble_p1 :
    assemble "INIT sha1\nUPDATE \"abc\" ; three bytes\n\nFINALIZE\nDIGEST" =
      some [0x01000000, 0x02000003, 0x61626300, 0x03000000, 0x04000000] := by decide
theorem test_assemble_refuses : assemble "FINALIZE 3" = none ∧ assemble "UPDATE" = none ∧
    assemble ".word 0x123" = none := by decide

/-! ### Primitives (section 2.1) -/

theorem test_rotations :
    rotl 0x80000001 1 = 0x00000003 ∧ rotl 0x12345678 5 = 0x468acf02 ∧ rotl 0x12345678 30 = 0x048d159e ∧
    rotr 0x00000001 2 = 0x40000000 ∧ rotr 0x12345678 7 = 0xf02468ac ∧ shr 0xffffffff 3 = 0x1fffffff := by
  decide
theorem test_choices :
    ch 0xf0f0f0f0 0xff00ff00 0x0f0f0f0f = 0xff0fff0f ∧ maj 0xf0f0f0f0 0xff00ff00 0x0f0f0f0f = 0xff00ff00 ∧
    parity 0xf0f0f0f0 0xff00ff00 0x0f0f0f0f = 0x00ff00ff := by decide
theorem test_sigmas :
    bigSigma0 0x12345678 = 0x66146474 ∧ bigSigma1 0x12345678 = 0x3561abda ∧
    smallSigma0 0x12345678 = 0xe7fce6ee ∧ smallSigma1 0x12345678 = 0xa1f78649 := by decide

/-! ### Padding (section 4.1) -/

theorem test_padding_boundary :
    (pad (List.replicate 55 0x61) 0x1b8).length = 64 ∧ (pad (List.replicate 56 0x61) 0x1c0).length = 128 := by
  decide +kernel
theorem test_length_field_wraps :
    be64Bytes ({ holdingAbc .sha1 [] with processed := 0x1fffffffffffffc0 }).bitlen =
      [0xff, 0xff, 0xff, 0xff, 0xff, 0xff, 0xfe, 0x18] ∧
    ({ active .sha1 [] with processed := 0x2000000000000000 }).bitlen = 0 := by decide

/-! ### Commands, one step each -/

/-- V5.8: after RST and INIT sha1. -/
theorem test_init_status :
    nextHas (step { State.reset with cmd := [0x01000000] }) (fun t => t.status == 0x00000001) = true := by
  decide
/-- V5.7: INIT over a finalized state of the other algorithm. -/
theorem test_init_switches_algorithm :
    nextHas (step (finalized .sha1 [0x01010000]))
      (fun t => t.status == 0x00000003 && t.h.e7 == some 0x5be0cd19 && t.f == RegFile.bottom) = true := by decide

/-- R205's example, with a trailing byte that must be ignored (section 3, payload packing). -/
theorem test_update_abc :
    nextHas (step (active .sha1 [0x02000003, 0x616263ff]))
      (fun t => t.status == 0x00000301 && t.unprocessed == some [0x61, 0x62, 0x63] && t.cpos == 3) = true := by
  decide
/-- Section 3, row [64]: one block of 0x61, compressed at once. -/
theorem test_update_block :
    nextHas (step (active .sha1 (0x02000040 :: List.replicate 16 0x61616161)))
      (fun t => t.h.e0 == some 0xda4968eb && t.h.e4 == some 0xe74ebdbd && t.processed == 64 &&
        t.status == 0x00000001) = true := by
  decide +kernel

/-- R215's example: SHA-1("abc"). -/
theorem test_finalize_abc :
    nextHas (step (holdingAbc .sha1 [0x03000000]))
      (fun t => t.f == ⟨some 0xa9993e36, some 0x4706816a, some 0xba3e2571, some 0x7850c26c,
        some 0x9cd0d89d, none, none, none⟩ && t.status == 0x00000305) = true := by
  decide +kernel
/-- Section 2.4: SHA-256("abc"). -/
theorem test_finalize_abc_sha256 :
    nextHas (step (holdingAbc .sha256 [0x03000000]))
      (fun t => t.f == ⟨some 0xba7816bf, some 0x8f01cfea, some 0x414140de, some 0x5dae2223, some 0xb00361a3,
        some 0x96177a9c, some 0xb410ff61, some 0xf20015ad⟩ && t.status == 0x00000307) = true := by
  decide +kernel

/-- V6.4. -/
theorem test_digest_without_result :
    nextHas (step (active .sha1 [0x04000000])) (fun t => t.status == 0x00000048) = true := by decide
/-- R240: the words of F in order at the tail of OUT. -/
theorem test_digest_words :
    step (finalized .sha1 [0x04000000]) =
      .next { finalized .sha1 [] with out := [1, 2, 3, 4, 5], cpos := 2 } := by
  have hr : (finalized .sha1 [0x04000000]).hasRoom = true := by
    simp [State.hasRoom, Config.outDepth, finalized, active, State.setFinal, stateWordCount,
      State.initialize, State.reset, State.freshAccumulator, State.discardFinal]
    omega
  have hw : waits .digest (finalized .sha1 [0x04000000]) = false := by
    show ((finalized .sha1 [0x04000000]).fvalid && !(finalized .sha1 [0x04000000]).hasRoom) = false
    rw [hr]
    rfl
  have ht : turn (finalized .sha1 [0x04000000]) = .command .digest := by
    rw [turn_active (i := .digest) rfl (by decide) rfl rfl (by decide), hw]
    rfl
  have he : exec .digest (finalized .sha1 [0x04000000]) =
      (if (finalized .sha1 [0x04000000]).hasRoom = false then .next (finalized .sha1 [0x04000000])
        else conclude (finalized .sha1 [0x04000000]) 1
          ((finalized .sha1 [0x04000000]).outputFile (finalized .sha1 [0x04000000]).f)) := rfl
  unfold step
  rw [ht]
  simp only [he, hr]
  rfl

/-- V5.4: RESET keeps F and FVALID. -/
theorem test_reset_keeps_result :
    nextHas (step (finalized .sha256 [0x05000000])) (fun t => t.status == 0x00000007 && t.f.e7 == some 8) =
      true := by decide
/-- V5.6: FRESET without a finalized state. -/
theorem test_freset_without_result :
    nextHas (step (active .sha256 [0x06000000])) (fun t => t.status == 0x00000003) = true := by decide

/-- V2.3: the zero block compressed from the SHA-1 IV; PROCESSED does not count it. -/
theorem test_compress_zero_block :
    nextHas (step (active .sha1 (0x07000040 :: List.replicate 16 0)))
      (fun t => t.h == ⟨some 0x92b404e5, some 0x56588ced, some 0x6c1acd4e, some 0xbf053f68,
        some 0x09f73a93, none, none, none⟩ && t.processed == 0 && t.cpos == 18) = true := by
  decide +kernel
/-- V6.3b and its SHA-256 counterpart (program P7). -/
theorem test_compress_block_size :
    nextHas (step (active .sha1 [0x0700003f])) (fun t => t.status == 0x00000038) = true ∧
    nextHas (step (active .sha256 [0x07000003, 0x61626300]))
      (fun t => t.status == 0x0000003a && t.cmd == [0x61626300]) = true := by decide

/-- V2.1: the words READH reads after INIT, the IV in order. -/
theorem test_readh_words :
    (readFile .sha1 (active .sha1 []).h).map stateWordList =
      some [0x67452301, 0xefcdab89, 0x98badcfe, 0x10325476, 0xc3d2e1f0] := by decide
/-- V2.2: READH is held only by the room in OUT, whatever BUF holds. -/
theorem test_readh_reads_h_only :
    readFile .sha1 (holdingAbc .sha1 []).h = readFile .sha1 (active .sha1 []).h := by decide

/-! ### Faults and the halted phase (section 6) -/

/-- The NOT_INIT vectors. -/
theorem test_not_init :
    [(0x02000003 : Word), 0x03000000, 0x04000000, 0x05000000, 0x06000000, 0x07000040, 0x08000000].all
      (fun w => nextHas (step { State.reset with cmd := [w] }) (fun t => t.status == 0x00000028 && t.cpos == 1)) =
        true := by decide
/-- A malformed word in UNINIT is ILLEGAL. -/
theorem test_illegal_before_init :
    [(0x01030000 : Word), 0x02010001].all
      (fun w => nextHas (step { State.reset with cmd := [w] }) (fun t => t.status == 0x00000018)) = true := by
  decide
/-- INIT does not leave HALTED, and the word is discarded. -/
theorem test_halted_discards_init :
    nextHas (step (halted [0x01000000, 0x01000000]))
      (fun t => t.phase == .halted && t.err == .noResult && t.cmd == []) = true := by decide

/-! ### Ports -/

/-- RST in HALTED gives STATUS 00000000, with what the host has read kept. -/
theorem test_rst_leaves_halted :
    nextHas (step { halted [0x04000000] with host := [.assertRst], doutReads := [7] })
      (fun t => t.status == 0 && t.cmd == [] && t.rst && t.doutReads == [7]) = true := by decide
/-- A STATUS read waits for the command at cpos and then reflects it (R78). -/
theorem test_status_read_is_held :
    nextHas (step { State.reset with cmd := [0x01000000], host := [.readStatus] })
      (fun t => t.statusReads == [] && t.phase == .active && nextHas (step t) (fun u => u.statusReads == [1])) =
        true := by decide
/-- The instruction withFetchWord places runs on the very next step from reset. -/
theorem test_with_fetch_word :
    nextHas (step (State.reset.withFetchWord 32 0x01010000)) (fun t => t.status == 0x00000003) = true := by
  decide

/-! ### Witnesses of the obligations' hypotheses -/

theorem witness_decoded_words : decode 0x0200ffff = .ok (.update 65535) := by decide

/-- MatchAndMaskSelectTheCommand: a word of no row. -/
theorem witness_no_row :
    let w : Word := 0x09000000
    w &&& 0xFFFEFFFF ≠ 0x01000000 ∧ w &&& 0xFFFF0000 ≠ 0x02000000 ∧ w &&& 0xFFFFFFFF ≠ 0x03000000 ∧
    w &&& 0xFFFFFFFF ≠ 0x04000000 ∧ w &&& 0xFFFFFFFF ≠ 0x05000000 ∧ w &&& 0xFFFFFFFF ≠ 0x06000000 ∧
    w &&& 0xFFFF0000 ≠ 0x07000000 ∧ w &&& 0xFFFFFFFF ≠ 0x08000000 := by decide

/-- IllegalWordsAndTheirFault, FaultEntry and ChecksAreMadeInOrder: an illegal word at cpos in UNINIT and in ACTIVE. -/
theorem witness_illegal_word :
    (State.reset.rst = false ∧ State.reset.host.head? ≠ some .assertRst ∧ State.reset.phase = .uninit ∧
      decode 0x01030000 = .error .reserved) ∧
    ((active .sha1 [0x04000001]).rst = false ∧ (active .sha1 [0x04000001]).host.head? ≠ some .assertRst ∧
      (active .sha1 [0x04000001]).phase ≠ .halted ∧ decode 0x04000001 = .error .length) := by decide

/-- IllegalWordsAndTheirFault, CompressResult: the lengths next to 64, and the extremes. -/
theorem witness_block_size_lengths :
    (active .sha1 []).phase = .active ∧ ∀ n ∈ [0, 63, 65, 65535], n < 65536 ∧ n ≠ 64 := by decide

/-- StepRunsTheCommandAtCpos, StuckRunsNeverEnd: a command that is enabled, and one that waits. -/
theorem witness_enabled_and_waiting :
    waits (.update 1) (active .sha1 [0x02000001, 0]) = false ∧ decode 0x02000001 = .ok (.update 1) ∧
    waits (.update 1) (active .sha1 [0x02000001]) = true ∧ (active .sha1 [0x02000001]).host = [] := by decide

theorem witness_stuck_run : StuckRun (active .sha1 [0x02000001]) :=
  ⟨⟨0x02000001, [], .update 1, rfl, by decide, by decide⟩, .inl rfl⟩

/-- CommandsConsumeTheirLength: a command that completes and one that faults. -/
theorem witness_complete_and_fault :
    (active .sha1 [0x05000000]).phase ≠ .halted ∧ waits .reset (active .sha1 [0x05000000]) = false ∧
    nextHas (exec .reset (active .sha1 [0x05000000])) (fun t => t.phase == .active) = true ∧
    waits .digest (active .sha1 [0x04000000]) = false ∧
    nextHas (exec .digest (active .sha1 [0x04000000])) (fun t => t.phase == .halted) = true := by decide

/-- PayloadBytesAreBigEndian: five bytes in two words, byte 3 the last of the first word, byte 4 the
first of the second. -/
theorem witness_payload :
    (active .sha1 [0x02000005, 0x48656c6c, 0x6f000000]).payload 2 = some [0x48656c6c, 0x6f000000] ∧
    [(0x48656c6c : Word), 0x6f000000].length = (5 + 3) / 4 ∧
    [(0x48656c6c : Word), 0x6f000000][3 / 4]? = some 0x48656c6c ∧
    [(0x48656c6c : Word), 0x6f000000][4 / 4]? = some 0x6f000000 ∧ 4 < 5 := by decide

/-- UpdateLineExpandsInOrder: no byte; a full piece without a remainder; and one byte more, which has a
piece that is not the last. -/
theorem witness_update_pieces :
    updatePieces 0 [] = [[]] ∧
    updatePieces 1 (List.replicate 65535 0) = [List.replicate 65535 0] ∧
    updatePieces 1 (List.replicate 65536 0) = [List.replicate 65535 0, [0]] := by
  have ht : (List.replicate 65536 (0 : Byte)).take 65535 = List.replicate 65535 0 := List.take_replicate ..
  have hd : (List.replicate 65536 (0 : Byte)).drop 65535 = [0] := List.drop_replicate ..
  refine ⟨rfl, if_pos ?_, (if_neg ?_).trans (by rw [ht, hd]; rfl)⟩ <;> rw [List.length_replicate]
  omega
/-- BlockWordsAreBigEndian: 64 bytes form a block, one fewer or one more do not (R140). -/
theorem witness_blocks :
    (formBlock (List.replicate 64 0)).isSome = true ∧ formBlock (List.replicate 63 0) = none ∧
    formBlock (List.replicate 65 0) = none := by decide

/-- StatusLayout: the largest OUTCNT. -/
theorem witness_status_layout : (queued .sha256 255 []).out.length ≤ 255 :=
  Nat.le_of_eq (List.length_replicate ..)

/-- EveryStepKeepsTheInvariant, NoStepReadsBottom, AbsorbIsChunkingInvariant, AbsorbIsBytewise: an active
state that meets the invariant and has a next state. -/
theorem witness_invariant : Inv (active .sha256 [0x05000000]) ∧ (active .sha256 [0x05000000]).phase = .active ∧
    ∃ t, step (active .sha256 [0x05000000]) = .next t := by
  refine ⟨?_, rfl, (nextHas_exists (check := fun _ => true) (by decide)).imp fun t h => h.1⟩
  have hf : FileHolds .sha256 (active .sha256 [0x05000000]).h :=
    fileHolds_freshFile (w := initialWords .sha256) rfl
  exact
    { bufWritten := by decide
      hWhole := .inr hf
      hActive := fun _ => hf
      uninit := fun h => by cases h
      finalHeld := fun h => by cases h
      finalGone := fun _ => rfl
      errCode := by decide
      outFits := Nat.zero_le _
      processedBlocks := rfl
      rstHeld := fun h => by cases h }

/-- ReadOfBottomFaults: an active state, which no run reaches, whose files hold ⊥. -/
theorem witness_bottom :
    let s : State := { State.reset with phase := .active, cmd := 0x07000040 :: List.replicate 16 0 }
    s.phase = .active ∧ readFile s.mode s.h = none ∧ readFile s.mode s.f = none ∧
    ({ s with buflen := 1 }).unprocessed = none ∧ s.payload 16 = some (List.replicate 16 0) ∧
    wordsForBytes 64 = 16 ∧ 64 ≤ s.buflen.toNat + 64 := by decide
/-- The room the outputs need, whatever OUT_DEPTH is. -/
theorem witness_room (m : Alg) : (0 : Nat) + stateWordCount m ≤ Config.outDepth := by
  cases m <;> (simp [stateWordCount, Config.outDepth]; try omega)

/-- PhaseLifecycle, HaltedRunsStayHalted, HaltedDiscardsWords, InitResult: a halted state, and the one
step that leaves it. -/
theorem witness_halted :
    (halted [0x04000000, 7]).phase = .halted ∧ (halted [0x04000000, 7]).host = [] ∧
    (halted [0x04000000, 7]).cmd = [7] ∧ (halted [0x04000000, 7]).rst = false ∧
    nextHas (step { halted [] with host := [.assertRst] }) (fun t => t.phase != .halted) = true := by decide
theorem witness_halted_run :
    ∃ t, Host.Core.run Sys2Proof.core 1 (halted [0x04000000, 7]) = .next t ∧
      ∀ m ∈ (halted [0x04000000, 7]).host, m ≠ .assertRst := ⟨_, rfl, by decide⟩

/-- ModeWrittenOnlyByInitAndRst, StateFileWriters. -/
theorem witness_mode_and_state_file_written :
    nextHas (step { State.reset with cmd := [0x01010000] })
      (fun t => t.mode != State.reset.mode && t.h != State.reset.h) = true ∧
    nextHas (step { active .sha256 [] with host := [.assertRst] })
      (fun t => t.mode != .sha256 && t.h != (active .sha256 []).h) = true := by decide
/-- DigestFileWriters. -/
theorem witness_digest_file_written :
    nextHas (step (finalized .sha1 [0x06000000])) (fun t => t.fvalid != true) = true := by decide
/-- ErrWrittenOnlyByFaultAndRst. -/
theorem witness_err_written :
    nextHas (step (active .sha1 [0x00000000])) (fun t => t.err != .none) = true ∧
    nextHas (step { halted [] with host := [.assertRst] }) (fun t => t.err != .noResult) = true := by decide
/-- OutQueueWriters, DoutReadPopsTheHead. -/
theorem witness_out_written :
    (queued .sha1 2 []).out = 0 :: [0] ∧ (active .sha1 []).out = [] ∧
    nextHas (step { queued .sha1 2 [] with host := [.readDout] }) (fun t => t.out != [0, 0]) = true ∧
    step { queued .sha1 2 [] with host := [.busRead (Config.engineBase + 4) 4] } =
      step { queued .sha1 2 [] with host := [.readDout] } := by
  refine ⟨by decide, by decide, by decide, ?_⟩
  simp [step, turn, queued, active, State.initialize, State.discardFinal, State.freshAccumulator, hostStep,
    State.readyHost, State.hostBlocked, State.writeHeld, hostMove, State.busRead]
/-- CommandStreamIsConsumedInOrder: a command's words consumed, one word of a fault, a word appended, and
nothing moved by a read or by a write that RST discards. -/
theorem witness_stream_moves :
    nextHas (step (active .sha1 [0x02000001, 7, 8])) (fun t => t.cmd == [8]) = true ∧
    nextHas (step { active .sha1 [0x02000001] with host := [.writeCmd 7] })
      (fun t => t.cmd == [0x02000001, 7]) = true ∧
    nextHas (step (active .sha1 [0x04000000, 7])) (fun t => t.cmd == [7] && t.phase == .halted) = true ∧
    nextHas (step { active .sha1 [0x02000001] with host := [.readStatus] }) (fun t => t.cmd == [0x02000001]) =
      true ∧
    nextHas (step { State.reset with rst := true, host := [.writeCmd 7] }) (fun t => t.cmd == []) = true := by
  decide
/-- InitResult: a command other than INIT in UNINIT. -/
theorem witness_not_init : (∀ alg, Instr.finalize ≠ .init alg) ∧ State.reset.phase = .uninit :=
  ⟨fun _ h => Instr.noConfusion h, rfl⟩

/-- Sha1ScheduleRecurrence and Sha256ScheduleRecurrence at both ends of their ranges. -/
theorem witness_sha1_schedule :
    ∀ t ∈ [16, 79], ∀ j ∈ [3, 8, 14, 16],
      ((scheduleSha1 (Vector.replicate 16 1))[t - j]?).isSome = true := by decide +kernel
theorem witness_sha256_schedule :
    ∀ t ∈ [16, 63], ∀ j ∈ [2, 7, 15, 16],
      ((scheduleSha256 (Vector.replicate 16 1))[t - j]?).isSome = true := by decide +kernel

/-- Working variables that follow the SHA-1 rounds of a schedule. -/
def followSha1 (w : List Word) (s : Sha1Vars) : Nat → Sha1Vars
  | 0 => s
  | t + 1 => roundSha1 t (followSha1 w s t) ((w[t]?).getD 0)
/-- Working variables that follow the SHA-256 rounds of a schedule. -/
def followSha256 (w : List Word) (s : Sha256Vars) : Nat → Sha256Vars
  | 0 => s
  | t + 1 => roundSha256 (followSha256 w s t) ((sha256K[t]?).getD 0) ((w[t]?).getD 0)

/-- Sha1CompressionFollowsTheRounds: the sequence above meets its hypotheses. -/
theorem witness_sha1_rounds (w : List Word) (s : Sha1Vars) (v : Nat → Sha1Vars) (hv : v = followSha1 w s) :
    v 0 = s ∧
    ∀ (t : Nat) (x : Word), t < 80 → w[t]? = some x →
      let f : Word :=
        if t ≤ 19 then ((v t).b &&& (v t).c) ^^^ (~~~(v t).b &&& (v t).d)
        else if t ≤ 39 then (v t).b ^^^ (v t).c ^^^ (v t).d
        else if t ≤ 59 then ((v t).b &&& (v t).c) ^^^ ((v t).b &&& (v t).d) ^^^ ((v t).c &&& (v t).d)
        else (v t).b ^^^ (v t).c ^^^ (v t).d
      let k : Word :=
        if t ≤ 19 then 0x5A827999 else if t ≤ 39 then 0x6ED9EBA1 else if t ≤ 59 then 0x8F1BBCDC
        else 0xCA62C1D6
      v (t + 1) =
        ⟨rotl (v t).a 5 + f + (v t).e + k + x, (v t).a, rotl (v t).b 30, (v t).c, (v t).d⟩ := by
  subst hv
  refine ⟨rfl, fun t x _ h => ?_⟩
  have lt_iff (n : Nat) : (t < n + 1) = (t ≤ n) := by simp
  simp only [followSha1, h, Option.getD_some, roundSha1, sha1F, sha1K, ch, maj, parity, lt_iff 19, lt_iff 39,
    lt_iff 59]
/-- Sha256CompressionFollowsTheRounds: likewise. -/
theorem witness_sha256_rounds (w : List Word) (s : Sha256Vars) (v : Nat → Sha256Vars)
    (hv : v = followSha256 w s) :
    v 0 = s ∧
    ∀ (t : Nat) (k x : Word), t < 64 → sha256K[t]? = some k → w[t]? = some x →
      let T1 := (v t).h + (rotr (v t).e 6 ^^^ rotr (v t).e 11 ^^^ rotr (v t).e 25) +
        (((v t).e &&& (v t).f) ^^^ (~~~(v t).e &&& (v t).g)) + k + x
      let T2 := (rotr (v t).a 2 ^^^ rotr (v t).a 13 ^^^ rotr (v t).a 22) +
        (((v t).a &&& (v t).b) ^^^ ((v t).a &&& (v t).c) ^^^ ((v t).b &&& (v t).c))
      v (t + 1) = ⟨T1 + T2, (v t).a, (v t).b, (v t).c, (v t).d + T1, (v t).e, (v t).f, (v t).g⟩ := by
  subst hv
  exact ⟨rfl, fun t k x _ hk h => by
    simp only [followSha256, hk, h, Option.getD_some, roundSha256, bigSigma1, bigSigma0, ch, maj]⟩

theorem witness_rotations : ∀ k ∈ [1, 31], ∀ i ∈ [0, 31], 0 < k ∧ k < 32 ∧ i < 32 := by decide

/-- CompressResult. -/
theorem witness_compress :
    let s := active .sha256 (0x07000040 :: List.replicate 16 0)
    s.phase = .active ∧ (s.payload 16).isSome = true ∧ (readFile s.mode s.h).isSome = true := by decide
/-- OnlyCompressRaisesBlockSize, FaultEntry. -/
theorem witness_block_size_raised :
    (active .sha1 []).err ≠ .blockSize ∧
    nextHas (exec (.compress 0) (active .sha1 [0x07000000]))
      (fun t => t.err == .blockSize && t.phase == .halted) = true := by decide
/-- ReadhResult, DigestResult: the entries an output reads, under either algorithm. -/
theorem witness_output_entries :
    (finalized .sha1 []).mode = .sha1 ∧ (finalized .sha1 []).f.e0 = some 1 ∧ (finalized .sha1 []).f.e4 = some 5 ∧
    (active .sha1 []).h.e0 = some 0x67452301 ∧ (active .sha1 []).h.e4 = some 0xc3d2e1f0 ∧
    (finalized .sha256 []).mode = .sha256 ∧ (finalized .sha256 []).f.e7 = some 8 ∧
    (active .sha256 []).h.e7 = some 0x5be0cd19 := by decide
/-- ReadhResult, DigestResult, OutputHold: outputs that fit, and outputs that do not. -/
theorem witness_outputs_fit (m : Alg) :
    (finalized m []).out.length + stateWordCount (finalized m []).mode ≤ Config.outDepth ∧
    (readFile (finalized m []).mode (finalized m []).f).isSome = true ∧
    (readFile (finalized m []).mode (finalized m []).h).isSome = true := by
  refine ⟨?_, by cases m <;> decide, by cases m <;> decide⟩
  cases m
  · exact witness_room .sha1
  · exact witness_room .sha256
theorem witness_outputs_held (m : Alg) :
    Config.outDepth < (queued m Config.outDepth []).out.length + stateWordCount (queued m Config.outDepth []).mode := by
  cases m <;> simp [queued, active, State.initialize, State.discardFinal, State.freshAccumulator, stateWordCount]

/-- UpdateResult: no byte, three bytes, and any LEN (65535 among them) with its words present. -/
theorem witness_update :
    (active .sha1 []).unprocessed = some [] ∧ (readFile .sha1 (active .sha1 []).h).isSome = true ∧
    (active .sha1 [0x02000000]).payload (wordsForBytes 0) = some [] ∧
    (active .sha1 [0x02000003, 0x61626300]).payload (wordsForBytes 3) = some [0x61626300] := by decide
theorem witness_update_any_length (len : Nat) :
    (active .sha1 (encode (.update len) :: List.replicate (wordsForBytes len) 0)).payload (wordsForBytes len) =
      some (List.replicate (wordsForBytes len) 0) := by
  rw [payload_eq_some]
  simp [active]
/-- ShortUpdateOnlyAppends: one byte short of a block, and the entries of both its clauses. -/
theorem witness_short_update :
    let s := holdingAbc .sha1 (0x0200003c :: List.replicate 15 0x61616161)
    s.phase = .active ∧ (s.payload (wordsForBytes 60)).isSome = true ∧ s.buflen.toNat + 60 < 64 ∧
    2 < s.buflen.toNat ∧ s.buflen.toNat ≤ 3 ∧ 62 < s.buflen.toNat + 60 ∧ s.buflen.toNat + 60 ≤ 63 := by decide

/-- FinalizeResult, PaddingRule: remainders of 0 and 3 bytes and at the boundary. -/
theorem witness_finalize :
    (holdingAbc .sha1 []).phase = .active ∧ (holdingAbc .sha1 []).unprocessed = some [0x61, 0x62, 0x63] ∧
    (readFile .sha1 (holdingAbc .sha1 []).h).isSome = true ∧
    (List.replicate 55 (0x61 : Byte)).length ≤ 55 ∧ 56 ≤ (List.replicate 56 (0x61 : Byte)).length ∧
    (List.replicate 63 (0x61 : Byte)).length ≤ 63 := by decide
/-- FinalizeIsIdempotent. -/
theorem witness_finalize_again :
    (holdingAbc .sha1 []).phase = .active ∧ (∃ t, exec .finalize (holdingAbc .sha1 []) = .next t) ∧
    ∃ a, (holdingAbc .sha1 []).absorb [0x64, 0x65] = .ok a :=
  ⟨rfl, (nextHas_exists (check := fun _ => true) (by decide +kernel)).imp fun _ h => h.1,
    ok_exists (by decide)⟩

/-- DigestResult, NO_RESULT and NOT_INIT clauses; ResetResult and FresetResult. -/
theorem witness_phases_and_fvalid :
    (finalized .sha1 []).phase = .active ∧ (finalized .sha1 []).fvalid = true ∧
    (active .sha1 []).fvalid = false ∧ State.reset.phase = .uninit ∧
    nextHas (exec .reset (active .sha1 [0x06000000])) (fun _ => true) = true := by decide

/-- ReadsAreHeldUntilCommandsComplete: a read is next and the command at cpos is enabled. -/
theorem witness_read_held :
    let s : State := { active .sha1 [0x05000000] with host := [.readDout] }
    s.rst = false ∧ s.host.head? ≠ some .assertRst ∧ decode 0x05000000 = .ok .reset ∧
    waits .reset s = false ∧ nextHas (step s) (fun _ => true) = true := by decide

/-- BusAccessesReachThePortsOrAreRefused: refused accesses exist at every base. -/
theorem witness_bus_refused :
    ¬(Config.engineBase + 4 = Config.engineBase ∧ (4 : Nat) = 4) ∧
    ¬((Config.engineBase = Config.engineBase + 4 ∨ Config.engineBase = Config.engineBase + 8) ∧ (4 : Nat) = 4) := by
  omega

/-- PayloadBytesAreBigEndian, MissingPayloadWaits: with the last payload word present In(k) answers and
the command is enabled. -/
theorem witness_payload_present :
    1 + 1 ≤ (active .sha1 [0x02000001, 0]).cmd.length ∧ (active .sha1 [0x02000001, 0]).cmd ≠ [] ∧
    waits (.update 1) (active .sha1 [0x02000001, 0]) = false ∧
    waits (.compress 64) (active .sha1 (0x07000040 :: List.replicate 16 0)) = false := by decide
/-- ChecksAreMadeInOrder: words whose LEN alone is wrong. -/
theorem witness_length_check :
    decode 0x01010001 = .error .length ∧ decode 0x0300ffff = .error .length ∧ decode 0x08000001 = .error .length := by
  decide

/-- MissingPayloadWaits: waits of UPDATE and COMPRESS, one word short, and the write and RST that lift
one. -/
theorem witness_payload_missing :
    (active .sha1 [0x02000001]).cmd.length < 1 + (1 + 3) / 4 ∧
    (active .sha1 (0x07000040 :: List.replicate 15 0)).cmd.length < 17 ∧
    waits (.update 1) (active .sha1 [0x02000001]) = true ∧
    nextHas (step { active .sha1 [0x02000001] with host := [.writeCmd 0] })
      (fun t => waits (.update 1) t == false) = true ∧
    nextHas (step { active .sha1 [0x02000001] with host := [.assertRst] })
      (fun t => waits (.update 1) t == false) = true := by decide

/-- An active engine at a DIGEST, with the given words in OUT. -/
def atDigest (out : List Word) (host : List HostMove) (doutReads : List Word) : State :=
  { finalized .sha1 [0x04000000] with out := out, host := host, doutReads := doutReads }

/-- OutputHold: a held DIGEST that one read of DOUT lifts. -/
theorem witness_hold_lifted :
    ∃ k, waits .digest (atDigest (List.replicate (k + 1) 0) [.readDout] []) = true ∧
      step (atDigest (List.replicate (k + 1) 0) [.readDout] []) =
        .next (atDigest (List.replicate k 0) [] [0]) ∧
      waits .digest (atDigest (List.replicate k 0) [] [0]) = false := by
  have hd : 8 ≤ Config.outDepth := by simp [Config.outDepth]
  have hw (o m r) : waits .digest (atDigest o m r) = !decide (o.length + 5 ≤ Config.outDepth) := rfl
  refine ⟨Config.outDepth - 5, ?_, ?_, ?_⟩
  · rw [hw]
    simp
    omega
  · have ht : turn (atDigest (List.replicate (Config.outDepth - 5 + 1) 0) [.readDout] []) = .host := by
      rw [turn_active (w := 0x04000000) (rest := []) (i := .digest) rfl (by simp [atDigest]) rfl rfl
        (by decide), hw]
      simp
      omega
    unfold step
    rw [ht]
    rfl
  · rw [hw]
    simp
    omega

/-- CmdWriteAppends, StuckRunsNeverEnd: a DIGEST is held, the host's next access is a write, and the DOUT
read behind it, which would make room, is not reached (R83, R78). -/
theorem witness_write_held (m : HostMove) (hm : writesCmd m = true) :
    waits .digest (atDigest (List.replicate Config.outDepth 0) [m, .readDout] []) = true ∧
    step (atDigest (List.replicate Config.outDepth 0) [m, .readDout] []) =
      .next (atDigest (List.replicate Config.outDepth 0) [m, .readDout] []) ∧
    StuckRun (atDigest (List.replicate Config.outDepth 0) [m, .readDout] []) := by
  have hw : waits .digest (atDigest (List.replicate Config.outDepth 0) [m, .readDout] []) = true := by
    show (!decide ((List.replicate Config.outDepth (0 : Word)).length + 5 ≤ Config.outDepth)) = true
    simp
  have hd : decode 0x04000000 = .ok .digest := by decide
  have hh : (atDigest (List.replicate Config.outDepth 0) [m, .readDout] []).writeHeld = true :=
    writeHeld_iff.2 ⟨rfl, 0x04000000, [], .digest, rfl, hd, rfl, hw⟩
  have hb : HostBlocked (atDigest (List.replicate Config.outDepth 0) [m, .readDout] []) ∧
      .assertRst ∉ (atDigest (List.replicate Config.outDepth 0) [m, .readDout] []).host := by
    refine ⟨⟨hh, m, [.readDout], rfl, hm⟩, ?_⟩
    cases m <;> simp [writesCmd, atDigest] at hm ⊢
  refine ⟨hw, ?_, ⟨0x04000000, [], .digest, rfl, hd, hw⟩, .inr hb⟩
  have ht : turn (atDigest (List.replicate Config.outDepth 0) [m, .readDout] []) = .host := by
    rw [turn_active (w := 0x04000000) (rest := []) (i := .digest) rfl
      (by cases m <;> simp [writesCmd, atDigest] at hm ⊢) rfl rfl hd, hw]
    rfl
  unfold step
  rw [ht]
  exact hostStep_of_none (.inr hb)
/-- RstRestoresTheResetState: a write is held, and the RST behind it and behind a read is asserted at once
(R286, R311). -/
theorem witness_rst_lifts_write_hold :
    waits .digest (atDigest (List.replicate Config.outDepth 0) [.writeCmd 7, .readDout, .assertRst] []) = true ∧
    step (atDigest (List.replicate Config.outDepth 0) [.writeCmd 7, .readDout, .assertRst] []) =
      .next { State.reset with rst := true } := by
  have hw : waits .digest (atDigest (List.replicate Config.outDepth 0)
      [.writeCmd 7, .readDout, .assertRst] []) = true := by
    show (!decide ((List.replicate Config.outDepth (0 : Word)).length + 5 ≤ Config.outDepth)) = true
    simp
  have hd : decode 0x04000000 = .ok .digest := by decide
  have hb : HostBlocked (atDigest (List.replicate Config.outDepth 0) [.writeCmd 7, .readDout, .assertRst] []) :=
    ⟨writeHeld_iff.2 ⟨rfl, 0x04000000, [], .digest, rfl, hd, rfl, hw⟩, .writeCmd 7, _, rfl, rfl⟩
  have ht : turn (atDigest (List.replicate Config.outDepth 0) [.writeCmd 7, .readDout, .assertRst] []) =
      .host := by
    rw [turn_active (w := 0x04000000) (rest := []) (i := .digest) rfl (by simp [atDigest]) rfl rfl hd, hw]
    rfl
  refine ⟨hw, ?_⟩
  unfold step
  rw [ht]
  exact hostStep_of_rst (pre := [.writeCmd 7, .readDout]) (rest := []) hb rfl (by simp)
/-- CmdWriteAppends, ReadsAreHeldUntilCommandsComplete: a write that completes behind an incomplete UPDATE,
and streams that hold no word of a later command. -/
theorem witness_write_free :
    turn { active .sha1 [0x02000005, 0] with host := [.writeCmd 7] } = .host ∧
    decode 0x02000005 = .ok (.update 5) ∧ [(0 : Word)].length ≤ payloadCount (.update 5) ∧
    ({ active .sha1 [0x02000005, 0] with host := [.writeCmd 7] } : State).writeHeld = false := by decide
theorem witness_stream_holds : StreamHolds (active .sha1 [0x02000005, 0]) := by
  intro w rest h
  cases h
  exact .inr ⟨rfl, .update 5, by decide, by decide⟩

/-- RstRestoresTheResetState, CmdWriteAppends: each clause's host access. -/
theorem witness_host_accesses :
    ({ halted [] with host := [.assertRst] } : State).host = .assertRst :: [] ∧
    ({ State.reset with rst := true, host := [.writeCmd 7] } : State).host = .writeCmd 7 :: [] ∧
    ({ State.reset with rst := true, host := [.releaseRst] } : State).host = .releaseRst :: [] ∧
    ({ State.reset with host := [.writeCmd 7] } : State).rst = false ∧ State.reset.cmd = [] := by decide

end Sys2Proof.Tests
end

/-! The word operations of 00_scope.md R9: the model's ROTL is the library's rotation, and
ROTR by k is ROTL by 32 - k, so one bit lemma answers for both. -/

namespace Sys2Proof.Machine

theorem rotl_eq_rotateLeft (x : Word) {k : Nat} (hk : k < 32) : rotl x k = x.rotateLeft k := by
  rw [rotl, BitVec.rotateLeft_def, Nat.mod_eq_of_lt hk]

theorem rotr_eq_rotl (x : Word) {k : Nat} (hk : k ≤ 32) : rotr x k = rotl x (32 - k) := by
  rw [rotr, rotl, Nat.sub_sub_self hk, BitVec.or_comm]

/-- Below bit 32 - k the bit moves up by k; from there on it wraps to bit i + k - 32. -/
theorem getLsbD_rotl_add_mod (x : Word) {k i : Nat} (hk : k < 32) (hi : i < 32) :
    (rotl x k).getLsbD ((i + k) % 32) = x.getLsbD i := by
  rw [rotl_eq_rotateLeft x hk, BitVec.getLsbD_rotateLeft_of_le hk]
  by_cases hwrap : i + k < 32
  · have hnot : ¬ i + k < k := by omega
    simp [Nat.mod_eq_of_lt hwrap, hnot, hwrap]
  · have hmod : (i + k) % 32 = i + k - 32 := by omega
    have hlow : i + k - 32 < k := by omega
    have hback : 32 - k + (i + k - 32) = i := by omega
    simp [hmod, hlow, hback]

theorem getLsbD_rotr_sub_mod (x : Word) {k i : Nat} (hpos : 0 < k) (hk : k < 32) (hi : i < 32) :
    (rotr x k).getLsbD ((i + 32 - k) % 32) = x.getLsbD i := by
  rw [rotr_eq_rotl x hk.le, Nat.add_sub_assoc hk.le i]
  exact getLsbD_rotl_add_mod x (Nat.sub_lt (by decide) hpos) hi

@[simp] theorem getLsbD_shr (x : Word) (k i : Nat) : (shr x k).getLsbD i = x.getLsbD (i + k) := by
  rw [shr, BitVec.getLsbD_ushiftRight, Nat.add_comm]

/-- Settles O32: each rotation by its bit lemma, SHR by its own, and addition as the library gives it. -/
theorem rotationsAreCircular : Obligations.RotationsAreCircular := by
  intro x y k i hpos hk hi
  exact ⟨getLsbD_rotl_add_mod x hk hi, getLsbD_rotr_sub_mod x hpos hk hi, getLsbD_shr x k i,
    BitVec.toNat_add x y⟩

end Sys2Proof.Machine

/-! The invariant of 10_state.md. Each operation keeps Inv, once; a command keeps it by the operations it is
made of, an access of the host by the few fields it writes, and a step by one of the two. -/

namespace Sys2Proof.Machine

/-! ### Reset -/

/-- Settles O15: at reset BUF, H and F hold ⊥ and every counter is 0. -/
theorem invariantHoldsAtReset : Obligations.InvariantHoldsAtReset where
  bufWritten i := by rw [show State.reset.buf = emptyBuf from rfl, emptyBuf_get i.val i.isLt]; rfl
  hWhole := .inl rfl
  hActive := nofun
  uninit _ := ⟨rfl, rfl, rfl, rfl, rfl, rfl, rfl⟩
  finalHeld := nofun
  finalGone _ := rfl
  errCode := by decide
  outFits := Nat.zero_le _
  processedBlocks := rfl
  rstHeld := nofun

theorem Inv.assertRst (s : State) : Inv s.assertRst :=
  { invariantHoldsAtReset with rstHeld := fun _ => ⟨rfl, rfl⟩ }

/-! ### Operations of the engine -/

theorem FileHolds.writeFile {m : Alg} {r : RegFile} {w : StateWords} (h : FileHolds m r)
    (hw : stateWordAlg w = m) : FileHolds m (writeFile w r) := by
  obtain ⟨v, hv, rfl⟩ := h
  rw [writeFile_freshFile ((readFile_alg hv).trans hw.symm)]
  exact fileHolds_freshFile hw

theorem add_blocks_toNat_mod_64 {p : BitVec 64} (h : p.toNat % 64 = 0) (k : Nat) :
    (p + BitVec.ofNat 64 (64 * k)).toNat % 64 = 0 := by
  rw [BitVec.toNat_add, BitVec.toNat_ofNat]
  omega

/-- RST is released in every phase but UNINIT (R301). -/
theorem Inv.rst_eq_false {s : State} (h : Inv s) (hp : s.phase ≠ .uninit) : s.rst = false :=
  Bool.eq_false_iff.2 fun hr => hp (h.rstHeld hr).1

theorem Inv.consume {s : State} (h : Inv s) (hp : s.phase ≠ .uninit) (k : Nat) : Inv (s.consume k) :=
  { h with
    uninit := fun e => absurd e hp
    rstHeld := fun hr => absurd (h.rstHeld hr).1 hp }

theorem Inv.raiseFault {s : State} (h : Inv s) (hr : s.rst = false) {c : ErrCode} (hc : c ≠ .none) :
    Inv (s.raiseFault c) :=
  { h with
    hActive := nofun
    uninit := nofun
    errCode := iff_of_false hc (· rfl)
    rstHeld := fun e => absurd e (by simp [hr]) }

theorem Inv.discardFinal {s : State} (h : Inv s) : Inv s.discardFinal :=
  { h with
    uninit := fun e => by
      obtain ⟨hm, hh, hb, hq, -, ho, hc⟩ := h.uninit e
      exact ⟨hm, hh, hb, hq, rfl, ho, hc⟩
    finalHeld := nofun
    finalGone := fun _ => rfl }

theorem Inv.freshAccumulator {s : State} (h : Inv s) (hp : s.phase = .active) : Inv s.freshAccumulator :=
  have hf : FileHolds s.mode s.freshAccumulator.h := fileHolds_freshFile (initialWords_alg _)
  { h with
    bufWritten := invariantHoldsAtReset.bufWritten
    hWhole := .inr hf
    hActive := fun _ => hf
    uninit := fun e => nomatch hp.symm.trans e
    processedBlocks := rfl }

theorem Inv.setFinal {s : State} (h : Inv s) (hp : s.phase = .active) {w : StateWords}
    (hw : stateWordAlg w = s.mode) : Inv (s.setFinal w) :=
  { h with
    uninit := fun e => nomatch hp.symm.trans e
    finalHeld := fun _ => fileHolds_freshFile hw
    finalGone := nofun }

/-- The room DIGEST and READH ask for is what keeps OUT within OUT_DEPTH (R42, R286). -/
theorem Inv.pushOut {s : State} (h : Inv s) (hp : s.phase = .active) {w : StateWords}
    (hw : stateWordAlg w = s.mode) (hroom : s.hasRoom = true) : Inv (s.pushOut w) :=
  { h with
    uninit := fun e => nomatch hp.symm.trans e
    outFits := by
      rw [State.pushOut_out, List.length_append, stateWordList_length, hw]
      exact of_decide_eq_true hroom }

/-- The compression of one block: H stays whole, and nothing else moves. -/
theorem Inv.compressIntoH {s t : State} (h : Inv s) (hp : s.phase = .active) {d : List Byte}
    (ht : s.compressIntoH d = .ok t) : Inv t := by
  obtain ⟨w, w', hw, hc, rfl⟩ := compressIntoH_eq_ok.1 ht
  have hf : FileHolds s.mode (writeFile w' s.h) :=
    (h.hActive hp).writeFile ((compressBytes_alg hc).trans (readFile_alg hw))
  exact
    { h with
      hWhole := .inr hf
      hActive := fun _ => hf
      uninit := fun e => nomatch hp.symm.trans e }

/-- What absorb and FINALIZE read holds values in ACTIVE: the unprocessed bytes and the state words. -/
theorem Inv.active_reads {s : State} (h : Inv s) (hp : s.phase = .active) :
    ∃ r w, s.unprocessed = some r ∧ s.buf = writeBytes emptyBuf 0 r ∧ readFile s.mode s.h = some w := by
  obtain ⟨r, hr, hbuf⟩ := buf_of_bufWritten h.bufWritten
  obtain ⟨w, hw, -⟩ := h.hActive hp
  exact ⟨r, w, hr, hbuf, hw⟩

/-- absorb leaves H whole, BUF written exactly below the new BUFLEN, and PROCESSED a multiple of 64. -/
theorem Inv.absorb {s t : State} (h : Inv s) (hp : s.phase = .active) {d : List Byte}
    (ht : s.absorb d = .ok t) : Inv t := by
  obtain ⟨r, w, hr, hbuf, hw⟩ := h.active_reads hp
  obtain ⟨w', hc, ha⟩ := absorb_eq_clean (d := d) hr hbuf hw
  obtain rfl := Except.ok.inj (ha.symm.trans ht)
  have hf : FileHolds s.mode (writeFile w' s.h) :=
    (h.hActive hp).writeFile ((compressAll_alg hc).trans (readFile_alg hw))
  have hlen : (BitVec.ofNat 6 (leftover (r ++ d)).length).toNat = (leftover (r ++ d)).length := by
    rw [BitVec.toNat_ofNat, leftover_length]
    omega
  exact
    { h with
      bufWritten := fun i => by
        rw [hlen]
        exact isSome_writeBytes_emptyBuf _ _ i.isLt
      hWhole := .inr hf
      hActive := fun _ => hf
      uninit := fun e => nomatch hp.symm.trans e
      processedBlocks := add_blocks_toNat_mod_64 h.processedBlocks _ }

/-! ### Commands, the host, and the step -/

/-- INIT starts a whole H and an empty BUF and F afresh; every other command is made of the operations above. -/
theorem ExecCase.inv {i : Instr} {s t : State} (hc : ExecCase i s t) (h : Inv s) (hr : s.rst = false) :
    Inv t := by
  cases hc with
  | init alg hp =>
    have hf : FileHolds alg (freshFile (initialWords alg)) := fileHolds_freshFile (initialWords_alg alg)
    exact
      { h with
        bufWritten := invariantHoldsAtReset.bufWritten
        hWhole := .inr hf
        hActive := fun _ => hf
        uninit := nofun
        finalHeld := nofun
        finalGone := fun _ => rfl
        errCode := iff_of_true (h.errCode.2 hp) nofun
        processedBlocks := rfl
        rstHeld := fun e => absurd e (by simp [hr]) }
  | update len hp _ hu =>
    exact (h.absorb hp hu).consume (by rw [absorb_frame hu]; simp [hp]) _
  | finalize hp hw => exact (h.setFinal hp (finalWords_alg hw)).consume (by simp [hp]) 1
  | digest hp _ hroom hw => exact (h.pushOut hp (readFile_alg hw) hroom).consume (by simp [hp]) 1
  | reset hp => exact (h.freshAccumulator hp).consume (by simp [hp]) 1
  | freset hp => exact (h.freshAccumulator hp).discardFinal.consume (by simp [hp]) 1
  | compress hp _ hu =>
    obtain ⟨w, w', -, -, rfl⟩ := compressIntoH_eq_ok.1 hu
    exact (h.compressIntoH hp hu).consume (by simp [hp]) 17
  | readh hp hroom hw => exact (h.pushOut hp (readFile_alg hw) hroom).consume (by simp [hp]) 1
  | notInit | updateBlockSize | finalizeBlockSize | noResult | compressLen | compressBlockSize =>
    exact h.raiseFault hr nofun

theorem HostCase.inv {m : HostMove} {s t : State} (hc : HostCase m s t) (h : Inv s) : Inv t := by
  cases hc with
  | write _ hr => exact { h with rstHeld := fun e => absurd e (by simp [hr]) }
  | readDout _ ho =>
    have hout := h.outFits
    rw [ho] at hout
    exact
      { h with
        uninit := fun e => by
          obtain ⟨-, -, -, -, -, hnil, -⟩ := h.uninit e
          exact nomatch ho.symm.trans hnil
        outFits := Nat.le_of_succ_le hout }
  | assertRst => exact Inv.assertRst s
  | releaseRst => exact { h with rstHeld := nofun }
  | writeDiscarded | readEmpty | readStatus => exact { h with }

/-- The accesses the host has still to make are no part of the invariant. -/
theorem Inv.withHost {s : State} (h : Inv s) (l : List HostMove) : Inv { s with host := l } := { h with }

theorem hostStep_inv {s t : State} (h : Inv s) (ht : hostStep s = .next t) : Inv t := by
  rcases hostStep_next_cases ht with ⟨rfl, -⟩ | ⟨m, rest, -, -, hc⟩ | ⟨pre, rest, -, -, rfl⟩
  · exact h
  · exact hc.inv (h.withHost rest)
  · exact Inv.assertRst _

/-- Settles O16: by whose turn it is, and then by the case of the command or of the host's access. -/
theorem everyStepKeepsTheInvariant : Obligations.EveryStepKeepsTheInvariant := by
  intro s t h ht
  rcases step_next_cases ht with ⟨-, ht⟩ | ⟨-, hp, -, rfl⟩ | ⟨hturn, -, -, rfl⟩ | ⟨i, hturn, -, hc⟩
  · exact hostStep_inv h ht
  · exact h.consume (by simp [hp]) 1
  · obtain ⟨hr, -⟩ := turn_eq_illegal hturn
    exact h.raiseFault hr nofun
  · obtain ⟨hr, -⟩ := turn_eq_command hturn
    exact hc.inv h hr

/-! ### No read of ⊥ -/

theorem Inv.absorb_ok {s : State} (h : Inv s) (hp : s.phase = .active) (d : List Byte) :
    ∃ t, s.absorb d = .ok t := by
  obtain ⟨r, w, hr, -, hw⟩ := h.active_reads hp
  obtain ⟨w', -, ha⟩ := absorb_eq (d := d) hr hw
  exact ⟨_, ha⟩

theorem Inv.finalized_ok {s : State} (h : Inv s) (hp : s.phase = .active) : ∃ t, s.finalized = .ok t := by
  obtain ⟨r, w, hr, -, hw⟩ := h.active_reads hp
  obtain ⟨w', hc⟩ := compressAll_ok w (fullBlocks_sizes (pad r s.bitlen))
  have hf : s.finalWords = .ok w' := by simp only [State.finalWords, hr, hw, hc]
  exact ⟨_, finalized_eq_ok.2 ⟨w', hf, rfl⟩⟩

theorem FileHolds.outputFile_ok {s : State} {r : RegFile} (h : FileHolds s.mode r) :
    ∃ t, s.outputFile r = .ok t := by
  obtain ⟨w, hw, -⟩ := h
  exact ⟨_, outputFile_eq_ok.2 ⟨w, hw, rfl⟩⟩

/-- COMPRESS reads no ⊥ from a whole H, whatever bytes it is given. -/
theorem FileHolds.compressIntoH_ne_bottom {s : State} (h : FileHolds s.mode s.h) (d : List Byte) :
    s.compressIntoH d ≠ .error .bottom := by
  obtain ⟨w, hw, -⟩ := h
  simp only [State.compressIntoH, hw, compressBytes]
  cases formBlock d <;> simp

/-- The end of a command whose computation gives a result is no fault. -/
theorem conclude_ne_fault_of_ok {s : State} {k : Nat} {x : Except Abort State} (h : ∃ t, x = .ok t)
    (r : Fault) : conclude s k x ≠ .fault r := by
  obtain ⟨t, rfl⟩ := h
  exact nofun

theorem Inv.exec_ne_fault {s : State} (h : Inv s) (i : Instr) (r : Fault) : exec i s ≠ .fault r := by
  intro he
  cases i with
  | init alg =>
    simp only [exec, execInit] at he
    split at he <;> cases he
  | update len =>
    obtain ⟨hp, he⟩ := whenActive_eq_fault.1 he
    split at he
    · cases he
    · exact conclude_ne_fault_of_ok (h.absorb_ok hp _) r he
  | finalize =>
    obtain ⟨hp, he⟩ := whenActive_eq_fault.1 he
    exact conclude_ne_fault_of_ok (h.finalized_ok hp) r he
  | digest =>
    obtain ⟨hp, he⟩ := whenActive_eq_fault.1 he
    split at he
    · cases he
    · rename_i hf
      split at he
      · cases he
      · exact conclude_ne_fault_of_ok (h.finalHeld (by simpa using hf)).outputFile_ok r he
  | reset =>
    obtain ⟨-, he⟩ := whenActive_eq_fault.1 he
    cases he
  | freset =>
    obtain ⟨-, he⟩ := whenActive_eq_fault.1 he
    cases he
  | compress len =>
    obtain ⟨hp, he⟩ := whenActive_eq_fault.1 he
    split at he
    · cases he
    · split at he
      · cases he
      · exact (h.hActive hp).compressIntoH_ne_bottom _ (conclude_eq_fault.1 he)
  | readh =>
    obtain ⟨hp, he⟩ := whenActive_eq_fault.1 he
    split at he
    · cases he
    · exact conclude_ne_fault_of_ok (h.hActive hp).outputFile_ok r he

theorem hostMove_ne_fault (m : HostMove) (s : State) (r : Fault) : hostMove m s ≠ .fault r := by
  cases m with
  | busWrite addr width data =>
    simp only [hostMove, State.busWrite]
    split <;> exact nofun
  | busRead addr width =>
    simp only [hostMove, State.busRead]
    split
    · exact nofun
    · split <;> exact nofun
  | _ => exact nofun

theorem hostStep_ne_fault (s : State) (r : Fault) : hostStep s ≠ .fault r := by
  unfold hostStep
  split
  · exact nofun
  · exact hostMove_ne_fault _ _ r

/-- Settles O17: only a command can fault, and none does where the invariant holds. -/
theorem noStepReadsBottom : Obligations.NoStepReadsBottom := by
  intro s r h
  unfold step
  split
  · exact hostStep_ne_fault s r
  · exact nofun
  · exact nofun
  · exact h.exec_ne_fault _ r

end Sys2Proof.Machine

/-! STATUS (10_state.md R43): one formula for every bit of it, from which each field is read off. -/

namespace Sys2Proof.Machine

theorem getLsbD_bitWord (b : Bool) (i : Nat) : (bitWord b).getLsbD i = (decide (i = 0) && b) := by
  cases b <;> simp [bitWord]

/-- A single bit shifted up by k is bit k alone. -/
theorem getLsbD_bitWord_shiftLeft (b : Bool) {k i : Nat} (hi : i < 32) :
    (bitWord b <<< k).getLsbD i = (decide (i = k) && b) := by
  rw [BitVec.getLsbD_shiftLeft, getLsbD_bitWord]
  rcases Nat.lt_trichotomy i k with h | h | h
  · simp [h, h.ne]
  · simp [h, h ▸ hi]
  · simp [hi, h.ne', h.le, Nat.sub_eq_zero_iff_le, h]

/-- A field shifted up by k stands from bit k on. -/
theorem getLsbD_field_shiftLeft {n : Nat} (x : BitVec n) {k i : Nat} (hi : i < 32) :
    (x.setWidth 32 <<< k).getLsbD i = (decide (k ≤ i) && x.getLsbD (i - k)) := by
  have hk : i - k < 32 := by omega
  have hlt : (!decide (i < k)) = decide (k ≤ i) := by simp [← decide_not]
  rw [BitVec.getLsbD_shiftLeft, BitVec.getLsbD_setWidth, hlt]
  simp only [hi, hk, decide_true, Bool.true_and]

/-- Bit i of STATUS, field by field. -/
theorem getLsbD_status (s : State) {i : Nat} (hi : i < 32) :
    s.status.getLsbD i =
      (decide (i = 0) && s.activeBit || decide (i = 1) && s.modeBit || decide (i = 2) && s.fvalid ||
        decide (i = 3) && s.haltBit || decide (4 ≤ i) && (errBits s.err).getLsbD (i - 4) ||
        decide (8 ≤ i) && s.buflen.getLsbD (i - 8) || decide (16 ≤ i) && s.outcntBits.getLsbD (i - 16)) := by
  simp only [State.status, BitVec.getLsbD_or, getLsbD_bitWord, getLsbD_bitWord_shiftLeft _ hi,
    getLsbD_field_shiftLeft _ hi]

theorem status_bit_active (s : State) : s.status.getLsbD 0 = decide (s.phase = .active) := by
  rw [getLsbD_status s (by decide)]
  simp [State.activeBit]

theorem status_bit_mode (s : State) : s.status.getLsbD 1 = decide (s.mode = .sha256) := by
  rw [getLsbD_status s (by decide)]
  simp [State.modeBit]

theorem status_bit_fvalid (s : State) : s.status.getLsbD 2 = s.fvalid := by
  rw [getLsbD_status s (by decide)]
  simp

theorem status_bit_halt (s : State) : s.status.getLsbD 3 = decide (s.phase = .halted) := by
  rw [getLsbD_status s (by decide)]
  simp [State.haltBit]

/-- Above bit 3 a slice of STATUS is v where the three wide fields give the bits of v. -/
theorem status_slice_eq {k n : Nat} (hk : 4 ≤ k) (hn : k + n ≤ 32) (s : State) {v : BitVec n}
    (h : ∀ i, i < n →
      ((errBits s.err).getLsbD (k + i - 4) || decide (8 ≤ k + i) && s.buflen.getLsbD (k + i - 8) ||
        decide (16 ≤ k + i) && s.outcntBits.getLsbD (k + i - 16)) = v.getLsbD i) :
    s.status.extractLsb' k n = v := by
  apply BitVec.eq_of_getLsbD_eq
  intro i hi
  have h0 : k + i ≠ 0 := by omega
  have h1 : k + i ≠ 1 := by omega
  have h2 : k + i ≠ 2 := by omega
  have h3 : k + i ≠ 3 := by omega
  have h4 : 4 ≤ k + i := by omega
  rw [BitVec.getLsbD_extractLsb', getLsbD_status s (by omega), ← h i hi]
  simp only [h0, h1, h2, h3, h4, hi, decide_true, decide_false, Bool.true_and, Bool.false_and, Bool.false_or]

theorem status_field_err (s : State) : s.status.extractLsb' 4 4 = errBits s.err :=
  status_slice_eq (by decide) (by decide) s fun i hi => by
    have h8 : ¬ 8 ≤ 4 + i := by omega
    have h16 : ¬ 16 ≤ 4 + i := by omega
    simp [h8, h16]

theorem status_field_buflen (s : State) : s.status.extractLsb' 8 6 = s.buflen :=
  status_slice_eq (by decide) (by decide) s fun i hi => by
    have h16 : ¬ 16 ≤ 8 + i := by omega
    rw [BitVec.getLsbD_of_ge (errBits s.err) _ (by omega)]
    simp [h16]

theorem status_field_outcnt (s : State) : s.status.extractLsb' 16 8 = s.outcntBits :=
  status_slice_eq (by decide) (by decide) s fun i hi => by
    rw [BitVec.getLsbD_of_ge (errBits s.err) _ (by omega), BitVec.getLsbD_of_ge s.buflen _ (by omega)]
    simp

theorem status_reserved_low (s : State) : s.status.extractLsb' 14 2 = 0 :=
  status_slice_eq (by decide) (by decide) s fun i hi => by
    have h16 : ¬ 16 ≤ 14 + i := by omega
    rw [BitVec.getLsbD_of_ge (errBits s.err) _ (by omega), BitVec.getLsbD_of_ge s.buflen _ (by omega)]
    simp [h16]

theorem status_reserved_high (s : State) : s.status.extractLsb' 24 8 = 0 :=
  status_slice_eq (by decide) (by decide) s fun i hi => by
    rw [BitVec.getLsbD_of_ge (errBits s.err) _ (by omega), BitVec.getLsbD_of_ge s.buflen _ (by omega),
      BitVec.getLsbD_of_ge s.outcntBits _ (by omega)]
    simp

theorem status_reset : State.reset.status = 0 := by decide

/-- Settles O14: each bit and each field by its lemma; OUTCNT does not wrap at 255 words. -/
theorem statusLayout : Obligations.StatusLayout := by
  intro s hout
  have hcnt : (s.status.extractLsb' 16 8).toNat = s.out.length := by
    rw [status_field_outcnt, State.outcntBits, BitVec.toNat_ofNat]
    omega
  refine ⟨status_bit_active s, status_bit_mode s, status_bit_fvalid s, status_bit_halt s, ?_,
    status_field_buflen s, status_reserved_low s, hcnt, status_reserved_high s, rfl, status_reset⟩
  rw [status_field_err]
  cases s.err <;> rfl

/-- Settles O13: each element of R48 as the reset state writes it. -/
theorem resetLeavesTheSpecifiedState : Obligations.ResetLeavesTheSpecifiedState :=
  ⟨rfl, rfl, rfl, fun i => emptyBuf_get i.val i.isLt, rfl, rfl, rfl, rfl, rfl, rfl, rfl, status_reset⟩

end Sys2Proof.Machine

/-! Reads of ⊥ (10_state.md R31): each computation that reaches one aborts, and the command that runs it
faults. -/

namespace Sys2Proof.Machine

theorem compressIntoH_bottom {s : State} (h : readFile s.mode s.h = none) (d : List Byte) :
    s.compressIntoH d = .error .bottom := by
  simp only [State.compressIntoH, h]

theorem outputFile_bottom {s : State} {r : RegFile} (h : readFile s.mode r = none) :
    s.outputFile r = .error .bottom := by
  simp only [State.outputFile, h]

theorem finalized_bottom {s : State} (h : readFile s.mode s.h = none ∨ s.unprocessed = none) :
    s.finalized = .error .bottom := by
  have hw : s.finalWords = .error .bottom := by
    unfold State.finalWords
    cases hr : s.unprocessed with
    | none => rfl
    | some r =>
      have hn : readFile s.mode s.h = none := h.resolve_right (by simp [hr])
      simp only [hn]
  simp only [State.finalized, hw]

theorem compressBlock_bottom {s : State} (h : readFile s.mode s.h = none) (d : List Byte) :
    s.compressBlock d = .error .bottom := by
  simp only [State.compressBlock, compressIntoH_bottom h]

/-- Case A with at least one complete block compresses it, and so reads H. -/
theorem absorbAligned_bottom {s : State} (h : readFile s.mode s.h = none) {d : List Byte}
    (hd : 64 ≤ d.length) : s.absorbAligned d = .error .bottom := by
  have hne : fullBlocks d ≠ [] := fun e => by
    have hlen := congrArg List.length e
    rw [fullBlocks_length, List.length_nil] at hlen
    omega
  obtain ⟨b, bs, hb⟩ := List.exists_cons_of_ne_nil hne
  simp only [State.absorbAligned, hb, State.feedBlocks, compressBlock_bottom h]

/-- absorb reads H once a block is complete, and the buffered bytes where there are any. -/
theorem absorb_bottom {s : State} {d : List Byte} (hd : 64 ≤ s.buflen.toNat + d.length)
    (h : readFile s.mode s.h = none ∨ (s.buflen ≠ 0 ∧ s.unprocessed = none)) :
    s.absorb d = .error .bottom := by
  rw [State.absorb, if_neg (by omega)]
  by_cases hb : s.buflen.toNat = 0
  · have hz : s.buflen = 0 := BitVec.eq_of_toNat_eq hb
    rw [if_pos hb]
    exact absorbAligned_bottom (h.resolve_right fun hn => hn.1 hz) (by omega)
  · rw [if_neg hb]
    cases hr : s.unprocessed with
    | none => rfl
    | some r =>
      have hn : readFile s.mode s.h = none := h.resolve_right (by simp [hr])
      simp only [compressBlock_bottom hn]

/-- Settles O18: in ACTIVE each command answers what its computation does, an abort on ⊥. -/
theorem readOfBottomFaults : Obligations.ReadOfBottomFaults := by
  intro s hp
  have hfin (h : readFile s.mode s.h = none ∨ s.unprocessed = none) :
      exec .finalize s = .fault .unwrittenRead := by
    simp only [exec, execFinalize, whenActive_active hp, finalized_bottom h, conclude]
  refine ⟨fun h => hfin (.inl h), fun h => hfin (.inr h), fun h hroom => ?_, fun h hv hroom => ?_,
    fun p h hpay => ?_, fun len p hpay hlen h => ?_⟩
  · simp [exec, execReadh, whenActive_active hp, hroom, outputFile_bottom h, conclude]
  · simp [exec, execDigest, whenActive_active hp, hv, hroom, outputFile_bottom h, conclude]
  · simp [exec, execCompress, whenActive_active hp, hpay, compressIntoH_bottom h, conclude]
  · have hbytes : (payloadBytes p len).length = len := payloadBytes_length (payload_length hpay)
    have ha : s.absorb (payloadBytes p len) = .error .bottom := absorb_bottom (by rw [hbytes]; exact hlen) h
    simp only [exec, execUpdate, whenActive_active hp, hpay, ha, conclude]

end Sys2Proof.Machine

/-! Who writes each element of state (10_state.md R32 to R44): what a command and what the host's turn can do
to each, from which the statements about a step follow by whose turn it is. -/

namespace Sys2Proof.Machine

/-! ### Commands -/

theorem compressIntoH_frame {s t : State} {d : List Byte} (h : s.compressIntoH d = .ok t) :
    t = { s with h := t.h } := by
  obtain ⟨w, w', -, -, rfl⟩ := compressIntoH_eq_ok.1 h
  rfl

theorem ExecCase.mode_writers {i : Instr} {s t : State} (h : ExecCase i s t) :
    t.mode = s.mode ∨ ∃ alg, i = .init alg ∧ t.mode = alg := by
  cases h with
  | init alg => exact .inr ⟨alg, rfl, rfl⟩
  | update _ _ _ hu =>
    rw [absorb_frame hu]
    exact .inl rfl
  | compress _ _ hu =>
    rw [compressIntoH_frame hu]
    exact .inl rfl
  | _ => exact .inl rfl

theorem ExecCase.h_writers {i : Instr} {s t : State} (h : ExecCase i s t) :
    t.h = s.h ∨ (∃ alg, i = .init alg) ∨ i = .reset ∨ i = .freset ∨ (∃ n, i = .update n) ∨
      i = .compress 64 := by
  cases h with
  | init alg => exact .inr (.inl ⟨alg, rfl⟩)
  | reset => exact .inr (.inr (.inl rfl))
  | freset => exact .inr (.inr (.inr (.inl rfl)))
  | update len => exact .inr (.inr (.inr (.inr (.inl ⟨len, rfl⟩))))
  | compress => exact .inr (.inr (.inr (.inr (.inr rfl))))
  | _ => exact .inl rfl

theorem ExecCase.final_writers {i : Instr} {s t : State} (h : ExecCase i s t) :
    (t.f = s.f ∧ t.fvalid = s.fvalid) ∨ (i = .finalize ∧ t.fvalid = true) ∨
      (((∃ alg, i = .init alg) ∨ i = .freset) ∧ t.f = RegFile.bottom ∧ t.fvalid = false) := by
  cases h with
  | init alg => exact .inr (.inr ⟨.inl ⟨alg, rfl⟩, rfl, rfl⟩)
  | freset => exact .inr (.inr ⟨.inr rfl, rfl, rfl⟩)
  | finalize => exact .inr (.inl ⟨rfl, rfl⟩)
  | update _ _ _ hu =>
    rw [absorb_frame hu]
    exact .inl ⟨rfl, rfl⟩
  | compress _ _ hu =>
    rw [compressIntoH_frame hu]
    exact .inl ⟨rfl, rfl⟩
  | _ => exact .inl ⟨rfl, rfl⟩

theorem ExecCase.out_writers {i : Instr} {s t : State} (h : ExecCase i s t) :
    t.out = s.out ∨
      (i = .digest ∧ ∃ w, readFile s.mode s.f = some w ∧ t.out = s.out ++ stateWordList w) ∨
      (i = .readh ∧ ∃ w, readFile s.mode s.h = some w ∧ t.out = s.out ++ stateWordList w) := by
  cases h with
  | digest _ _ _ hw => exact .inr (.inl ⟨rfl, _, hw, rfl⟩)
  | readh _ _ hw => exact .inr (.inr ⟨rfl, _, hw, rfl⟩)
  | update _ _ _ hu =>
    rw [absorb_frame hu]
    exact .inl rfl
  | compress _ _ hu =>
    rw [compressIntoH_frame hu]
    exact .inl rfl
  | _ => exact .inl rfl

/-- A command that completes: ACTIVE, no fault, and exactly its words consumed (R100). -/
structure Completes (i : Instr) (s t : State) : Prop where
  phase : t.phase = .active
  err : t.err = s.err
  host : t.host = s.host
  fits : commandLength i ≤ s.cmd.length
  cpos : t.cpos = s.cpos + commandLength i
  cmd : t.cmd = s.cmd.drop (commandLength i)

/-- Every enabled command either completes or takes a fault, with only the fault entry made (R272). -/
theorem ExecCase.completes_or_faults {i : Instr} {s t : State} (h : ExecCase i s t) (hc : s.cmd ≠ []) :
    Completes i s t ∨ (s.phase ≠ .halted ∧ ∃ c, t = s.raiseFault c) := by
  have hpos : 1 ≤ s.cmd.length := List.length_pos_of_ne_nil hc
  cases h with
  | init => exact .inl ⟨rfl, rfl, rfl, hpos, rfl, rfl⟩
  | finalize hp | digest hp | reset hp | freset hp | readh hp =>
    exact .inl ⟨hp, rfl, rfl, hpos, rfl, rfl⟩
  | update len hp hpay hu =>
    have hfits : commandLength (.update len) ≤ s.cmd.length := by
      obtain ⟨hle, -⟩ := payload_eq_some.1 hpay
      simp only [commandLength, payloadCount]
      omega
    rw [absorb_frame hu]
    exact .inl ⟨hp, rfl, rfl, hfits, rfl, rfl⟩
  | compress hp hpay hu =>
    have hfits : commandLength (.compress 64) ≤ s.cmd.length := by
      obtain ⟨hle, -⟩ := payload_eq_some.1 hpay
      simp only [commandLength, payloadCount, if_true]
      omega
    rw [compressIntoH_frame hu]
    exact .inl ⟨hp, rfl, rfl, hfits, rfl, rfl⟩
  | notInit hp | updateBlockSize _ hp | finalizeBlockSize hp | noResult hp | compressLen _ hp
  | compressBlockSize hp =>
    exact .inr ⟨by simp [hp], _, rfl⟩

/-! ### The host's turn -/

/-- The host's turn asserts RST, makes no access, or makes its next one, which is no RST. -/
theorem hostStep_rst_or_access {s t : State} (h : hostStep s = .next t) :
    (AssertsRst s ∧ ∃ rest, t = ({ s with host := rest } : State).assertRst) ∨ t = s ∨
    ∃ m rest, s.host = m :: rest ∧ m ≠ .assertRst ∧ HostCase m { s with host := rest } t := by
  rcases hostStep_next_cases h with ⟨rfl, -⟩ | ⟨m, rest, hs, -, hc⟩ | ⟨pre, rest, hb, hs, rfl⟩
  · exact .inr (.inl rfl)
  · by_cases hm : m = .assertRst
    · subst hm
      rw [hostStep_of_free hs nofun] at h
      cases h
      exact .inl ⟨.inl (by rw [hs]; rfl), rest, rfl⟩
    · exact .inr (.inr ⟨m, rest, hs, hm, hc⟩)
  · exact .inl ⟨.inr ⟨hb, by rw [hs]; exact List.mem_append_cons_self⟩, rest, rfl⟩

/-- The host writes no element of the engine's state but OUT, unless it asserts RST. -/
theorem hostStep_rst_or_frame {s t : State} (h : hostStep s = .next t) :
    (AssertsRst s ∧ ∃ rest, t = ({ s with host := rest } : State).assertRst) ∨
    t = { s with out := t.out, cmd := t.cmd, rst := t.rst, host := t.host, doutReads := t.doutReads,
                 statusReads := t.statusReads, draws := t.draws } := by
  refine (hostStep_rst_or_access h).imp_right ?_
  rintro (rfl | ⟨m, rest, -, hm, hc⟩)
  · rfl
  · cases hc with
    | assertRst => contradiction
    | _ => rfl

/-- The host changes OUT by a read of DOUT, which takes the head, or by RST. -/
theorem hostStep_out_writers {s t : State} (h : hostStep s = .next t) :
    t.out = s.out ∨
    ((s.host.head? = some .readDout ∨ s.host.head? = some (.busRead (Config.engineBase + 4) 4)) ∧
      ∃ x, s.out = x :: t.out ∧ t.doutReads = s.doutReads ++ [x]) ∨
    (AssertsRst s ∧ t.out = []) := by
  rcases hostStep_rst_or_access h with ⟨hr, rest, rfl⟩ | rfl | ⟨m, rest, hs, hm, hc⟩
  · exact .inr (.inr ⟨hr, rfl⟩)
  · exact .inl rfl
  · cases hc with
    | assertRst => contradiction
    | readDout hport ho =>
      rw [hs, List.head?_cons]
      exact .inr (.inl ⟨hport.imp (congrArg some) (congrArg some), _, ho, rfl⟩)
    | _ => exact .inl rfl

/-- What the host's turn does to the command stream where it asserts no RST: one word appended by the
write it makes, or nothing. -/
theorem hostStep_stream {s t : State} (h : hostStep s = .next t) (hn : ¬ AssertsRst s) :
    (∃ m w rest, s.rst = false ∧ s.host = m :: rest ∧
      (m = .writeCmd w ∨ m = .busWrite Config.engineBase 4 w) ∧
      t.host = rest ∧ t.cpos = s.cpos ∧ t.cmd = s.cmd ++ [w]) ∨
    (t.cpos = s.cpos ∧ t.cmd = s.cmd ∧
      (t.host = s.host ∨ ∃ m rest, s.host = m :: rest ∧ t.host = rest ∧
        (writesCmd m = false ∨ s.rst = true))) := by
  rcases hostStep_rst_or_access h with ⟨hr, -⟩ | rfl | ⟨m, rest, hs, hm, hc⟩
  · contradiction
  · exact .inr ⟨rfl, rfl, .inl rfl⟩
  · cases hc with
    | write hport hr => exact .inl ⟨m, _, rest, hr, hs, hport, rfl, rfl, rfl⟩
    | writeDiscarded hr => exact .inr ⟨rfl, rfl, .inr ⟨m, rest, hs, rfl, .inr hr⟩⟩
    | readDout hport | readEmpty hport =>
      have hw : writesCmd m = false := by rcases hport with rfl | rfl <;> rfl
      exact .inr ⟨rfl, rfl, .inr ⟨m, rest, hs, rfl, .inl hw⟩⟩
    | readStatus hw => exact .inr ⟨rfl, rfl, .inr ⟨m, rest, hs, rfl, .inl hw⟩⟩
    | assertRst => contradiction
    | releaseRst => exact .inr ⟨rfl, rfl, .inr ⟨_, rest, hs, rfl, .inl rfl⟩⟩

/-! ### The step -/

/-- MODE, H, F and FVALID change on a step by a command or by RST only. -/
theorem step_rst_or_command_or_kept {s t : State} (h : step s = .next t) :
    (AssertsRst s ∧ ∃ rest, t = ({ s with host := rest } : State).assertRst) ∨
    (∃ i, turn s = .command i ∧ ExecCase i s t) ∨
    (t.mode = s.mode ∧ t.h = s.h ∧ t.f = s.f ∧ t.fvalid = s.fvalid) := by
  rcases step_next_cases h with ⟨-, ht⟩ | ⟨-, -, -, rfl⟩ | ⟨-, -, -, rfl⟩ | ⟨i, hturn, -, hc⟩
  · refine (hostStep_rst_or_frame ht).imp_right fun hf => .inr ?_
    rw [hf]
    exact ⟨rfl, rfl, rfl, rfl⟩
  · exact .inr (.inr ⟨rfl, rfl, rfl, rfl⟩)
  · exact .inr (.inr ⟨rfl, rfl, rfl, rfl⟩)
  · exact .inr (.inl ⟨i, hturn, hc⟩)

/-- Settles O20: the one command that writes MODE is INIT. -/
theorem modeWrittenOnlyByInitAndRst : Obligations.ModeWrittenOnlyByInitAndRst := by
  intro s t h hne
  rcases step_rst_or_command_or_kept h with ⟨hr, rest, rfl⟩ | ⟨i, hturn, hc⟩ | ⟨hkept, -⟩
  · exact .inr ⟨hr, rfl⟩
  · obtain ⟨alg, rfl, halg⟩ := hc.mode_writers.resolve_left hne
    exact .inl ⟨alg, hturn, halg⟩
  · exact absurd hkept hne

/-- Settles O21, by the commands that write H. -/
theorem stateFileWriters : Obligations.StateFileWriters := by
  intro s t h hne
  rcases step_rst_or_command_or_kept h with ⟨hr, -⟩ | ⟨i, hturn, hc⟩ | ⟨-, hkept, -⟩
  · exact .inr (.inr (.inr (.inr (.inr hr))))
  · rcases hc.h_writers.resolve_left hne with ⟨alg, rfl⟩ | rfl | rfl | ⟨n, rfl⟩ | rfl
    · exact .inl ⟨alg, hturn⟩
    · exact .inr (.inl hturn)
    · exact .inr (.inr (.inl hturn))
    · exact .inr (.inr (.inr (.inl ⟨n, hturn⟩)))
    · exact .inr (.inr (.inr (.inr (.inl hturn))))
  · exact absurd hkept hne

/-- Settles O22, by the commands that write F and FVALID and the values they leave. -/
theorem digestFileWriters : Obligations.DigestFileWriters := by
  intro s t h hne
  have hchanged : ¬ (t.f = s.f ∧ t.fvalid = s.fvalid) := not_and_or.2 hne
  rcases step_rst_or_command_or_kept h with ⟨hr, rest, rfl⟩ | ⟨i, hturn, hc⟩ | ⟨-, -, hkept⟩
  · exact .inr ⟨.inr (.inr hr), rfl, rfl⟩
  · rcases hc.final_writers.resolve_left hchanged with ⟨rfl, hv⟩ | ⟨⟨alg, rfl⟩ | rfl, hf⟩
    · exact .inl ⟨hturn, hv⟩
    · exact .inr ⟨.inl ⟨alg, hturn⟩, hf⟩
    · exact .inr ⟨.inr (.inl hturn), hf⟩
  · exact absurd hkept hchanged

/-- Settles O23: a command that completes keeps ERR, so a change is a fault's or RST's. -/
theorem errWrittenOnlyByFaultAndRst : Obligations.ErrWrittenOnlyByFaultAndRst := by
  intro s t h hne
  rcases step_next_cases h with ⟨-, ht⟩ | ⟨-, -, -, rfl⟩ | ⟨-, hp, -, rfl⟩ | ⟨i, -, hcmd, hc⟩
  · rcases hostStep_rst_or_frame ht with ⟨hr, rest, rfl⟩ | hf
    · exact .inr ⟨hr, rfl⟩
    · exact absurd (congrArg State.err hf) hne
  · exact absurd rfl hne
  · exact .inl ⟨hp, rfl, rfl⟩
  · rcases hc.completes_or_faults hcmd with hdone | ⟨hp, c, rfl⟩
    · exact absurd hdone.err hne
    · exact .inl ⟨hp, rfl, rfl⟩

/-- Settles O24: a command only appends to OUT, and the host only takes from it. -/
theorem outQueueWriters : Obligations.OutQueueWriters := by
  intro s t h hne
  rcases step_next_cases h with ⟨hturn, ht⟩ | ⟨-, -, -, rfl⟩ | ⟨-, -, -, rfl⟩ | ⟨i, hturn, -, hc⟩
  · rcases (hostStep_out_writers ht).resolve_left hne with hread | hr
    · exact .inr (.inr (.inl ⟨hturn, hread⟩))
    · exact .inr (.inr (.inr hr))
  · exact absurd rfl hne
  · exact absurd rfl hne
  · rcases hc.out_writers.resolve_left hne with ⟨rfl, hout⟩ | ⟨rfl, hout⟩
    · exact .inl ⟨hturn, hout⟩
    · exact .inr (.inl ⟨hturn, hout⟩)

/-- Settles O25: by whose turn it is; a command consumes its words or, where it faults, one. -/
theorem commandStreamIsConsumedInOrder : Obligations.CommandStreamIsConsumedInOrder := by
  intro s t h hn
  rcases step_next_cases h with ⟨hturn, ht⟩ | ⟨hturn, hp, hcmd, rfl⟩ | ⟨hturn, -, hcmd, rfl⟩ |
    ⟨i, hturn, hcmd, hc⟩
  · rcases hostStep_stream ht hn with ⟨m, w, rest, hw⟩ | hkept
    · exact .inr (.inr (.inl ⟨m, w, rest, hturn, hw⟩))
    · exact .inr (.inr (.inr ⟨hturn, hkept⟩))
  · exact .inr (.inl ⟨.inl hturn, hp, List.length_pos_of_ne_nil hcmd, rfl, rfl, rfl⟩)
  · exact .inr (.inl ⟨.inr (.inl hturn), rfl, List.length_pos_of_ne_nil hcmd, rfl, rfl, rfl⟩)
  · rcases hc.completes_or_faults hcmd with hdone | ⟨-, c, rfl⟩
    · exact .inl ⟨i, hturn, hdone.phase, hdone.fits, hdone.cpos, hdone.cmd, hdone.host⟩
    · exact .inr (.inl ⟨.inr (.inr ⟨i, hturn⟩), rfl, List.length_pos_of_ne_nil hcmd, rfl, rfl, rfl⟩)

/-! ### The lifecycle of PHASE -/

theorem waits_phase {i : Instr} {s : State} (h : waits i s = true) : s.phase = .active := by
  unfold waits at h
  cases hp : s.phase with
  | active => rfl
  | uninit | halted => simp [hp] at h

/-- The host is blocked in ACTIVE alone: only there does a command wait. -/
theorem HostBlocked.phase {s : State} (h : HostBlocked s) : s.phase = .active := by
  obtain ⟨-, w, rest, i, -, -, -, hw⟩ := writeHeld_iff.1 h.1
  exact waits_phase hw

/-- INIT outside HALTED makes the engine ACTIVE, whatever it was (R200). -/
theorem exec_init_active {s : State} (hp : s.phase ≠ .halted) (alg : Alg) :
    ∃ t, exec (.init alg) s = .next t ∧ t.phase = .active := by
  simp only [exec, execInit]
  cases h : s.phase with
  | halted => exact absurd h hp
  | uninit | active => exact ⟨_, rfl, rfl⟩

/-- In UNINIT every command but INIT takes NOT_INIT (R33). -/
theorem exec_uninit {i : Instr} {s : State} (hi : ∀ alg, i ≠ .init alg) (hp : s.phase = .uninit) :
    exec i s = .next (s.raiseFault .notInit) := by
  cases i with
  | init alg => exact absurd rfl (hi alg)
  | _ => exact whenActive_uninit hp _

/-- HALTED is left by RST only, and no held write stands before it there (R33, R273). -/
theorem step_halted_kept_or_rst {s t : State} (hp : s.phase = .halted) (h : step s = .next t) :
    t.phase = .halted ∨ s.host.head? = some .assertRst := by
  rcases step_next_cases h with ⟨-, ht⟩ | ⟨-, -, -, rfl⟩ | ⟨-, -, -, rfl⟩ | ⟨i, hturn, -, -⟩
  · rcases hostStep_rst_or_frame ht with ⟨hr, -⟩ | hf
    · refine .inr (hr.resolve_right fun ⟨hb, _⟩ => ?_)
      exact nomatch hp.symm.trans hb.phase
    · exact .inl ((congrArg State.phase hf).trans hp)
  · exact .inl hp
  · exact .inl rfl
  · obtain ⟨-, -, hne, -⟩ := turn_eq_command hturn
    exact absurd hp hne

/-- In HALTED the word at cpos is discarded (R273). -/
theorem step_halted_discards {s : State} {w : Word} {rest : List Word} (hr : s.rst = false)
    (hh : s.host.head? ≠ some .assertRst) (hc : s.cmd = w :: rest) (hp : s.phase = .halted) :
    step s = .next s.discardWord := by
  have hturn : turn s = .discard := by rw [turn_at_word hr hh hc, hp]
  simp only [step, hturn]

/-- Settles O19, a clause by a lemma each. -/
theorem phaseLifecycle : Obligations.PhaseLifecycle := by
  refine ⟨rfl, fun alg s hp => exec_init_active hp alg, fun _ _ => rfl, fun s t hp h hne => ?_,
    fun i s hi hp => exec_uninit hi hp, fun s w rest hr hh hc hp => ?_, fun s => ?_, fun s => ?_⟩
  · exact (step_halted_kept_or_rst hp h).resolve_left hne
  · rw [step_halted_discards hr hh hc hp, State.discardWord, State.consume, hc]
    rfl
  · rw [status_bit_active, decide_eq_true_eq]
  · rw [status_bit_halt, decide_eq_true_eq]

end Sys2Proof.Machine

/-! The four ports and the bus they may be bound to (20_memory.md R71 to R75). -/

namespace Sys2Proof.Machine

theorem readDout_of_cons {s : State} {x : Word} {rest : List Word} (h : s.out = x :: rest) :
    s.readDout = { s with out := rest, doutReads := s.doutReads ++ [x] } := by
  simp only [State.readDout, h]

theorem readDout_of_nil {s : State} (h : s.out = []) :
    s.readDout = { s with doutReads := s.doutReads ++ [Config.emptyDout s.draws], draws := s.draws + 1 } := by
  simp only [State.readDout, h]

/-- Settles O50, by whether OUT is empty; the free value is the draw's. -/
theorem doutReadPopsTheHead : Obligations.DoutReadPopsTheHead := by
  intro s
  refine ⟨fun x rest h => ?_, fun h => ⟨Config.emptyDout s.draws, ?_⟩⟩
  · rw [hostMove, readDout_of_cons h]
  · rw [hostMove, readDout_of_nil h]

/-- Settles O52: the three locations are distinct, so each access takes its own branch. -/
theorem busAccessesReachThePortsOrAreRefused : Obligations.BusAccessesReachThePortsOrAreRefused := by
  refine ⟨Nat.mul_mod_right 4 _, fun s addr width data => ⟨?_, ?_, ?_, fun h => if_neg h, fun h => ?_⟩⟩
  · rintro rfl rfl
    exact if_pos ⟨rfl, rfl⟩
  · rintro rfl rfl
    exact if_pos ⟨rfl, rfl⟩
  · rintro rfl rfl
    have hne : ¬ (Config.engineBase + 8 = Config.engineBase + 4 ∧ (4 : Nat) = 4) := by omega
    exact (if_neg hne).trans (if_pos ⟨rfl, rfl⟩)
  · rw [or_and_right, not_or] at h
    exact (if_neg h.1).trans (if_neg h.2)

theorem writeCmd_of_released {s : State} (h : s.rst = false) (w : Word) :
    s.writeCmd w = { s with cmd := s.cmd ++ [w] } := by
  simp [State.writeCmd, h]

theorem writesCmd_ne_assertRst {m : HostMove} (h : writesCmd m = true) : m ≠ .assertRst := by
  rintro rfl
  exact nomatch h

end Sys2Proof.Machine

/-! Whose turn it is while a command waits, and the stuck runs (20_memory.md R83, 60_exceptions.md R278, R286,
70_reset_and_hazards.md R310). -/

namespace Sys2Proof.Machine

theorem isOutput_iff {i : Instr} : isOutput i = true ↔ i = .digest ∨ i = .readh := by
  cases i <;> simp [isOutput]

/-- The host moves where RST wins, where no word is left, and where the command at cpos waits. -/
theorem turn_eq_host_iff {s : State} :
    turn s = .host ↔ (s.rst = true ∨ s.host.head? = some .assertRst) ∨ s.cmd = [] ∨ CommandWaits s := by
  by_cases hr : s.rst = true ∨ s.host.head? = some .assertRst
  · exact iff_of_true (turn_of_rst hr) (.inl hr)
  · rw [or_iff_right hr]
    obtain ⟨hrst, hhead⟩ := not_or.1 hr
    cases hc : s.cmd with
    | nil => exact iff_of_true (by simp [turn, hr, hc]) (.inl rfl)
    | cons w rest =>
      have hwait : CommandWaits s ↔ ∃ i, decode w = .ok i ∧ waits i s = true := by
        simp [CommandWaits, hc]
      rw [turn_at_word (Bool.eq_false_iff.2 hrst) hhead hc, hwait]
      cases hp : s.phase with
      | halted => simp [waits, hp]
      | uninit => cases decode w <;> simp [waits, hp]
      | active => cases decode w <;> simp

theorem turn_eq_host_of_released {s : State} (hr : s.rst = false) (hhead : s.host.head? ≠ some .assertRst) :
    turn s = .host ↔ s.cmd = [] ∨ CommandWaits s := by
  rw [turn_eq_host_iff, or_iff_right]
  simp [hr, hhead]

theorem CommandWaits.turn_eq_host {s : State} (h : CommandWaits s) : turn s = .host :=
  turn_eq_host_iff.2 (.inr (.inr h))

theorem commandWaits_iff {s : State} {w : Word} {rest : List Word} {i : Instr} (hc : s.cmd = w :: rest)
    (hd : decode w = .ok i) : CommandWaits s ↔ waits i s = true := by
  simp [CommandWaits, hc, hd]

/-- The CMD port holds the host's writes only behind a command that waits (R83). -/
theorem HostBlocked.commandWaits {s : State} (h : HostBlocked s) : CommandWaits s := by
  obtain ⟨hheld, -⟩ := h
  obtain ⟨-, w, rest, i, hc, hd, -, hw⟩ := writeHeld_iff.1 hheld
  exact ⟨w, rest, i, hc, hd, hw⟩

/-- RST is asserted on the host's turn alone. -/
theorem AssertsRst.turn_eq_host {s : State} (h : AssertsRst s) : turn s = .host := by
  rcases h with hhead | ⟨hb, -⟩
  · exact turn_of_rst (.inr hhead)
  · exact hb.commandWaits.turn_eq_host

/-- A stuck run stays as it is: the engine waits and the host has no access to make (log entry 3). -/
theorem StuckRun.step_fixed {s : State} (h : StuckRun s) : step s = .next s := by
  obtain ⟨hw, hhost⟩ := h
  simp only [step, hw.turn_eq_host, hostStep_of_none hhost]

/-- Settles O58: the step is fixed, and the word of the waiting command is still in the stream. -/
theorem stuckRunsNeverEnd : Obligations.StuckRunsNeverEnd := by
  intro n s h
  refine ⟨run_of_fixed h.step_fixed n, fun ⟨hnil, _⟩ => ?_⟩
  obtain ⟨⟨w, rest, i, hc, -⟩, -⟩ := h
  exact nomatch hnil.symm.trans hc

/-- A write that the CMD port does not hold appends its word on the host's turn (R71, R83). -/
theorem step_write_appends {s : State} {w : Word} {rest : List HostMove} (hr : s.rst = false)
    (hs : s.host = .writeCmd w :: rest) (ht : turn s = .host) (hf : s.writeHeld = false) :
    step s = .next { s with host := rest, cmd := s.cmd ++ [w] } := by
  simp only [step, ht, hostStep_of_free hs fun _ => hf, hostMove,
    writeCmd_of_released (s := { s with host := rest }) hr w]

/-- Settles O60: a write is made where the port does not hold it, and a held one makes the run stuck. -/
theorem cmdWriteAppends : Obligations.CmdWriteAppends := by
  refine ⟨fun s w hr => ?_, fun s w rest hr hc hs => ?_, fun s w rest hr hs ht hfree => ?_,
    fun s m rest x xs i n hr hc hd hi hw hs hm hn => ?_⟩
  · rw [hostMove, writeCmd_of_released hr]
  · rw [step_write_appends hr hs (turn_eq_host_iff.2 (.inr (.inl hc))) (writeHeld_of_nil hc), hc]
    rfl
  · refine step_write_appends hr hs ht (Bool.eq_false_iff.2 fun hheld => ?_)
    obtain ⟨-, x, xs, i, hc, hd, ho, hw⟩ := writeHeld_iff.1 hheld
    exact nomatch hw.symm.trans (hfree x xs i hc hd (isOutput_iff.1 ho))
  · have hheld : s.writeHeld = true := writeHeld_iff.2 ⟨hr, x, xs, i, hc, hd, isOutput_iff.2 hi, hw⟩
    have hnorst : .assertRst ∉ s.host := by
      rw [hs]
      exact List.not_mem_cons_of_ne_of_not_mem (writesCmd_ne_assertRst hm).symm hn
    have hstuck : StuckRun s := ⟨(commandWaits_iff hc hd).2 hw, .inr ⟨⟨hheld, m, rest, hs, hm⟩, hnorst⟩⟩
    exact ⟨hstuck.step_fixed, run_of_fixed hstuck.step_fixed n⟩

end Sys2Proof.Machine

/-! No word of a later command is in the stream (20_memory.md R78, R83): a command consumes all that stands
behind it, and the host writes only where the command at cpos still lacks a payload word. -/

namespace Sys2Proof.Machine

/-! ### BLOCK_SIZE is COMPRESS's alone: absorb forms blocks of 64 bytes only -/

theorem compressIntoH_error {s : State} {d : List Byte} {e : Abort} (hd : d.length = 64)
    (h : s.compressIntoH d = .error e) : e = .bottom := by
  unfold State.compressIntoH at h
  split at h
  · cases h
    rfl
  · rw [compressBytes_ok _ hd] at h
    cases h

theorem compressBlock_error {s : State} {d : List Byte} {e : Abort} (hd : d.length = 64)
    (h : s.compressBlock d = .error e) : e = .bottom := by
  unfold State.compressBlock at h
  split at h
  · rename_i hu
    cases h
    exact compressIntoH_error hd hu
  · cases h

theorem feedBlocks_error {s : State} {ds : List (List Byte)} {e : Abort} (hd : ∀ d ∈ ds, d.length = 64)
    (h : s.feedBlocks ds = .error e) : e = .bottom := by
  induction ds generalizing s with
  | nil => cases h
  | cons d ds ih =>
    obtain ⟨hhead, htail⟩ := List.forall_mem_cons.1 hd
    unfold State.feedBlocks at h
    split at h
    · rename_i hu
      cases h
      exact compressBlock_error hhead hu
    · exact ih htail h

theorem absorbAligned_error {s : State} {d : List Byte} {e : Abort} (h : s.absorbAligned d = .error e) :
    e = .bottom := by
  unfold State.absorbAligned at h
  split at h
  · rename_i hu
    cases h
    exact feedBlocks_error (fullBlocks_sizes d) hu
  · cases h

theorem absorb_error {s : State} {d : List Byte} {e : Abort} (h : s.absorb d = .error e) : e = .bottom := by
  unfold State.absorb at h
  split at h
  · cases h
  · split at h
    · exact absorbAligned_error h
    · split at h
      · cases h
        rfl
      · rename_i r hr
        split at h
        · rename_i hu
          cases h
          refine compressBlock_error ?_ hu
          have hlen := unprocessed_length hr
          have hlt := s.buflen.isLt
          rw [List.length_append, List.length_take]
          omega
        · exact absorbAligned_error h

/-! ### The engine's turn -/

/-- In ACTIVE an enabled command consumes its whole length, a fault too: what faults there is one word long
(R100, R272). -/
theorem ExecCase.cmd_of_active {i : Instr} {s t : State} (h : ExecCase i s t) (hp : s.phase = .active) :
    t.cmd = s.cmd.drop (commandLength i) := by
  cases h with
  | notInit hu => exact nomatch hp.symm.trans hu
  | update _ _ _ hu =>
    rw [absorb_frame hu]
    rfl
  | compress _ _ hu =>
    rw [compressIntoH_frame hu]
    rfl
  | updateBlockSize _ _ _ hu => exact nomatch absorb_error hu
  | compressBlockSize _ hpay hu =>
    exact nomatch compressIntoH_error (payloadBytes_length (payload_length hpay)) hu
  | compressLen len _ hl => simp [commandLength, payloadCount, hl]
  | init | finalize | finalizeBlockSize | noResult | digest | reset | freset | readh => rfl

/-- A command writes none of the host's records (log entry 5). -/
theorem ExecCase.host_records {i : Instr} {s t : State} (h : ExecCase i s t) :
    t.doutReads = s.doutReads ∧ t.statusReads = s.statusReads ∧ t.draws = s.draws := by
  cases h with
  | update _ _ _ hu =>
    rw [absorb_frame hu]
    exact ⟨rfl, rfl, rfl⟩
  | compress _ _ hu =>
    rw [compressIntoH_frame hu]
    exact ⟨rfl, rfl, rfl⟩
  | _ => exact ⟨rfl, rfl, rfl⟩

theorem step_engine_records {s t : State} (h : step s = .next t) (ht : turn s ≠ .host) :
    t.doutReads = s.doutReads ∧ t.statusReads = s.statusReads ∧ t.draws = s.draws := by
  rcases step_next_cases h with ⟨hhost, -⟩ | ⟨-, -, -, rfl⟩ | ⟨-, -, -, rfl⟩ | ⟨i, -, -, hc⟩
  · contradiction
  · exact ⟨rfl, rfl, rfl⟩
  · exact ⟨rfl, rfl, rfl⟩
  · exact hc.host_records

/-- On its turn the engine consumes words of the stream, at least one, and the host makes no access. -/
theorem step_engine_consumes {s t : State} (h : step s = .next t) (ht : turn s ≠ .host) :
    ∃ k, 1 ≤ k ∧ k ≤ s.cmd.length ∧ t.cpos = s.cpos + k ∧ t.cmd = s.cmd.drop k ∧ t.host = s.host := by
  rcases commandStreamIsConsumedInOrder s t h fun hr => ht hr.turn_eq_host with
    ⟨i, -, -, hfits, hcpos, hcmd, hhost⟩ | ⟨-, -, hfits, hcpos, hcmd, hhost⟩ | ⟨m, w, rest, hturn, -⟩ |
    ⟨hturn, -⟩
  · exact ⟨commandLength i, Nat.le_add_right 1 _, hfits, hcpos, hcmd, hhost⟩
  · exact ⟨1, le_rfl, hfits, hcpos, hcmd, hhost⟩
  · contradiction
  · contradiction

/-! ### The words behind the command at cpos -/

/-- A command waits for room in OUT, or for a payload word (R278, R286). -/
theorem waits_room_or_payload {i : Instr} {s : State} (h : waits i s = true) :
    (i = .digest ∨ i = .readh) ∨ s.cmd.length - 1 < payloadCount i := by
  have hp := waits_phase h
  cases i with
  | digest => exact .inl (.inl rfl)
  | readh => exact .inl (.inr rfl)
  | update len =>
    simp only [waits, hp, payload_isNone, decide_eq_true_eq] at h
    exact .inr h
  | compress len =>
    simp only [waits, hp, payload_isNone, Bool.and_eq_true, decide_eq_true_eq] at h
    obtain ⟨rfl, hlen⟩ := h
    exact .inr hlen
  | init | finalize | reset | freset => simp [waits, hp] at h

theorem StreamHolds.of_nil {s : State} (h : s.cmd = []) : StreamHolds s :=
  fun _ _ hc => nomatch h.symm.trans hc

/-- Behind the word at cpos stand at most the payload words of its command. -/
theorem StreamHolds.rest_length_le {s : State} {w : Word} {rest : List Word} {i : Instr} (h : StreamHolds s)
    (hc : s.cmd = w :: rest) (hd : decode w = .ok i) : rest.length ≤ payloadCount i := by
  rcases h w rest hc with rfl | ⟨-, j, hj, hlen⟩
  · exact Nat.zero_le _
  · cases hj.symm.trans hd
    exact hlen

/-- A write the port does not hold finds an empty stream, or a command in need of the word. -/
theorem StreamHolds.of_write {s t : State} {x : Word} (ht : turn s = .host) (hr : s.rst = false)
    (hhead : s.host.head? ≠ some .assertRst) (hf : s.writeHeld = false) (hp : t.phase = s.phase)
    (hcmd : t.cmd = s.cmd ++ [x]) : StreamHolds t := by
  intro w rest hc
  rcases (turn_eq_host_of_released hr hhead).1 ht with hnil | ⟨w', rest', i, hc', hd, hw⟩
  · rw [hcmd, hnil] at hc
    cases hc
    exact .inl rfl
  · have hnout : ¬ (i = .digest ∨ i = .readh) := fun ho =>
      Bool.eq_false_iff.1 hf (writeHeld_iff.2 ⟨hr, w', rest', i, hc', hd, isOutput_iff.2 ho, hw⟩)
    have hlen := (waits_room_or_payload hw).resolve_left hnout
    rw [hcmd, hc', List.cons_append] at hc
    rw [hc'] at hlen
    obtain ⟨rfl, rfl⟩ := List.cons.inj hc
    refine .inr ⟨hp.trans (waits_phase hw), i, hd, ?_⟩
    rw [List.length_append]
    exact hlen

/-- The host's turn: only a write puts a word into the stream, and RST empties it. -/
theorem StreamHolds.of_hostStep {s t : State} (h : StreamHolds s) (ht : turn s = .host)
    (hs : hostStep s = .next t) : StreamHolds t := by
  rcases hostStep_next_cases hs with ⟨rfl, -⟩ | ⟨m, rest, hm, hf, hc⟩ | ⟨pre, rest, -, -, rfl⟩
  · exact h
  · cases hc with
    | write hport hr =>
      have hwm := writesCmd_of_write hport
      have hhead : s.host.head? ≠ some .assertRst := by
        rw [hm, List.head?_cons]
        exact fun e => writesCmd_ne_assertRst hwm (Option.some.inj e)
      exact .of_write ht hr hhead (hf hwm) rfl rfl
    | assertRst => exact .of_nil rfl
    | writeDiscarded | readDout | readEmpty | readStatus | releaseRst => exact h
  · exact .of_nil rfl

/-- The engine's turn leaves no word: the command consumes its payload with it, and any other word stood
alone. -/
theorem StreamHolds.engine_empties {s t : State} (h : StreamHolds s) (ht : turn s ≠ .host)
    (hs : step s = .next t) : t.cmd = [] := by
  obtain ⟨k, hpos, hfits, -, hcmd, -⟩ := step_engine_consumes hs ht
  obtain ⟨w, rest, hc⟩ := List.exists_cons_of_length_pos (hpos.trans hfits)
  rcases h w rest hc with rfl | ⟨hp, i, hd, hlen⟩
  · rw [hcmd, hc]
    exact List.drop_eq_nil_of_le hpos
  · rcases step_next_cases hs with ⟨hhost, -⟩ | ⟨-, hhalt, -⟩ | ⟨hill, -⟩ | ⟨j, hturn, -, hcase⟩
    · contradiction
    · exact nomatch hp.symm.trans hhalt
    · obtain ⟨-, -, -, w', rest', e, hc', he⟩ := turn_eq_illegal hill
      cases hc.symm.trans hc'
      exact nomatch hd.symm.trans he
    · obtain ⟨-, -, -, -, w', rest', hc', hj⟩ := turn_eq_command hturn
      cases hc.symm.trans hc'
      cases hd.symm.trans hj
      rw [hcase.cmd_of_active hp, hc]
      refine List.drop_eq_nil_of_le ?_
      rw [List.length_cons, commandLength, Nat.add_comm 1]
      exact Nat.succ_le_succ hlen

theorem StreamHolds.of_step {s t : State} (h : StreamHolds s) (hs : step s = .next t) : StreamHolds t := by
  by_cases ht : turn s = .host
  · rw [step, ht] at hs
    exact h.of_hostStep ht hs
  · exact .of_nil (h.engine_empties ht hs)

/-- Settles O51: an enabled command is the engine's turn, which consumes words and leaves the host's records;
the stream keeps StreamHolds; and on the host's turn the command at cpos, if any, waits. -/
theorem readsAreHeldUntilCommandsComplete : Obligations.ReadsAreHeldUntilCommandsComplete := by
  refine ⟨fun s t w rest i hr hhead hc hd hw h => ?_, .of_nil rfl, fun s t hs h => hs.of_step h,
    fun s hs hr hhead ht => ?_⟩
  · have ht : turn s ≠ .host := by
      rw [Ne, turn_eq_host_of_released hr hhead, commandWaits_iff hc hd]
      simp [hc, hw]
    obtain ⟨k, hpos, hfits, hcpos, hcmd, hhost⟩ := step_engine_consumes h ht
    have hlen : t.cmd.length = s.cmd.length - k := by rw [hcmd, List.length_drop]
    exact ⟨by omega, by omega, hhost, step_engine_records h ht⟩
  · refine ((turn_eq_host_of_released hr hhead).1 ht).imp_right ?_
    rintro ⟨w, rest, i, hc, hd, hw⟩
    refine ⟨w, rest, i, hc, hd, hw, (waits_room_or_payload hw).imp (fun ho => ⟨ho, ?_⟩) fun hlen => ?_⟩
    · have hlen := hs.rest_length_le hc hd
      rcases ho with rfl | rfl <;> exact List.eq_nil_of_length_eq_zero (Nat.le_zero.1 hlen)
    · rw [hc] at hlen
      exact hlen

end Sys2Proof.Machine

/-! Decoding and encoding (30_encoding.md R101 to R108): what the decoder answers for the opcode of a word, the
rows of the match and mask table, and the round trips between commands and their words. -/

namespace Sys2Proof

/-! ### The opcode, and what the decoder answers for it -/

theorem opcode_bad_or_known (b : BitVec 8) : (b = 0 ∨ 9 ≤ b.toNat) ∨ ∃ op, b = opcodeBits op := by
  cases h : opcodeOfBits b with
  | none => exact .inl ((opcodeOfBits_eq_none b).1 h)
  | some op => exact .inr ⟨op, (opcodeOfBits_eq_some op b).1 h⟩

/-- The codes 0x00 and 0x09..0xFF are the ones that name no command (R103, R106 (a)). -/
theorem opcode_bad_iff {b : BitVec 8} : (b = 0 ∨ 9 ≤ b.toNat) ↔ ¬ (1 ≤ b.toNat ∧ b.toNat ≤ 8) := by
  rw [← BitVec.toNat_inj]
  simp
  omega

theorem opcodeBits_eq_iff (o p : Opcode) : opcodeBits o = opcodeBits p ↔ o = p :=
  ⟨opcodeBits_injective, congrArg opcodeBits⟩

/-- The ALG field is bit 16 (R101). -/
theorem algField_eq_ofBool (w : Word) : algField w = BitVec.ofBool (w.getLsbD 16) := by
  apply BitVec.eq_of_getLsbD_eq
  intro i hi
  obtain rfl : i = 0 := by omega
  simp [algField]

theorem algField_ne_zero {w : Word} : algField w ≠ 0 ↔ w.getLsbD 16 = true := by
  rw [algField_eq_ofBool]
  cases w.getLsbD 16 <;> decide

theorem algField_eq_zero {w : Word} : algField w = 0 ↔ w.getLsbD 16 = false := by
  rw [← not_iff_not, ← Ne, algField_ne_zero, Bool.not_eq_false]

theorem algOfBit_algField (w : Word) : algOfBit (algField w) = if w.getLsbD 16 then .sha256 else .sha1 := by
  rw [algField_eq_ofBool]
  cases w.getLsbD 16 <;> rfl

theorem decode_of_bad_opcode {w : Word} (h : opcField w = 0 ∨ 9 ≤ (opcField w).toNat) :
    decode w = .error .opcode := by
  rw [decode, (opcodeOfBits_eq_none _).2 h]

/-- The three checks behind a known opcode, in their order (R108). -/
theorem decode_of_opcode {w : Word} {op : Opcode} (h : opcField w = opcodeBits op) :
    decode w =
      if rsvField w ≠ 0 then .error .reserved
      else if algField w ≠ 0 ∧ op ≠ .init then .error .algorithm
      else if lenField w ≠ 0 ∧ op ≠ .update ∧ op ≠ .compress then .error .length
      else .ok (instrOf op (algOfBit (algField w)) (lenField w).toNat) := by
  rw [decode, h, opcodeOfBits_opcodeBits]

section
variable {w : Word} {op : Opcode} (h : opcField w = opcodeBits op)
include h

theorem opcField_range : 1 ≤ (opcField w).toNat ∧ (opcField w).toNat ≤ 8 := by
  rw [h]
  cases op <;> decide

theorem opcField_not_bad : ¬ (opcField w = 0 ∨ 9 ≤ (opcField w).toNat) := by
  rw [opcode_bad_iff, not_not]
  exact opcField_range h

theorem decode_ne_opcode : decode w ≠ .error .opcode := by
  rw [decode_of_opcode h]
  split_ifs <;> simp

theorem decode_eq_reserved : decode w = .error .reserved ↔ rsvField w ≠ 0 := by
  rw [decode_of_opcode h]
  split_ifs <;> simp_all

theorem decode_eq_algorithm :
    decode w = .error .algorithm ↔ rsvField w = 0 ∧ algField w ≠ 0 ∧ op ≠ .init := by
  rw [decode_of_opcode h]
  split_ifs <;> simp_all

theorem decode_eq_length :
    decode w = .error .length ↔
      rsvField w = 0 ∧ (algField w = 0 ∨ op = .init) ∧ lenField w ≠ 0 ∧ op ≠ .update ∧ op ≠ .compress := by
  rw [decode_of_opcode h]
  split_ifs <;> simp_all
  tauto

/-- With a known opcode a word is illegal by its RSV, its ALG or its LEN (R106 (b) to (d)). -/
theorem decode_illegal_iff :
    (∃ e, decode w = .error e) ↔ rsvField w ≠ 0 ∨ (algField w ≠ 0 ∧ op ≠ .init) ∨
      (lenField w ≠ 0 ∧ op ≠ .update ∧ op ≠ .compress) := by
  rw [decode_of_opcode h]
  split_ifs <;> simp_all

end

/-! ### When each check answers, by the code and the fields (R108) -/

theorem decode_eq_opcode_iff (w : Word) :
    decode w = .error .opcode ↔ opcField w = 0 ∨ 9 ≤ (opcField w).toNat := by
  rcases opcode_bad_or_known (opcField w) with hbad | ⟨op, hop⟩
  · exact iff_of_true (decode_of_bad_opcode hbad) hbad
  · exact iff_of_false (decode_ne_opcode hop) (opcField_not_bad hop)

theorem decode_eq_reserved_iff (w : Word) :
    decode w = .error .reserved ↔
      1 ≤ (opcField w).toNat ∧ (opcField w).toNat ≤ 8 ∧ rsvField w ≠ 0 := by
  rcases opcode_bad_or_known (opcField w) with hbad | ⟨op, hop⟩
  · have hrange := opcode_bad_iff.1 hbad
    rw [decode_of_bad_opcode hbad]
    exact iff_of_false (by simp) fun ⟨hlo, hhi, _⟩ => hrange ⟨hlo, hhi⟩
  · obtain ⟨hlo, hhi⟩ := opcField_range hop
    rw [decode_eq_reserved hop]
    exact ⟨fun hr => ⟨hlo, hhi, hr⟩, fun ⟨_, _, hr⟩ => hr⟩

theorem decode_eq_algorithm_iff (w : Word) :
    decode w = .error .algorithm ↔
      2 ≤ (opcField w).toNat ∧ (opcField w).toNat ≤ 8 ∧ rsvField w = 0 ∧ w.getLsbD 16 = true := by
  rcases opcode_bad_or_known (opcField w) with hbad | ⟨op, hop⟩
  · have hrange := opcode_bad_iff.1 hbad
    rw [decode_of_bad_opcode hbad]
    exact iff_of_false (by simp) fun ⟨hlo, hhi, _⟩ => hrange ⟨Nat.le_of_succ_le hlo, hhi⟩
  · rw [decode_eq_algorithm hop, algField_ne_zero, hop]
    cases op <;> simp [opcodeBits]

theorem decode_eq_length_iff (w : Word) :
    decode w = .error .length ↔
      ((opcField w = 0x01 ∧ rsvField w = 0) ∨
        (3 ≤ (opcField w).toNat ∧ (opcField w).toNat ≤ 8 ∧ opcField w ≠ 0x07 ∧ rsvField w = 0 ∧
          w.getLsbD 16 = false)) ∧ lenField w ≠ 0 := by
  rcases opcode_bad_or_known (opcField w) with hbad | ⟨op, hop⟩
  · have hrange := opcode_bad_iff.1 hbad
    rw [decode_of_bad_opcode hbad]
    refine iff_of_false (by simp) ?_
    rintro ⟨⟨hone, -⟩ | ⟨hlo, hhi, -⟩, -⟩
    · exact hrange (by rw [hone]; decide)
    · exact hrange ⟨by omega, hhi⟩
  · rw [decode_eq_length hop, algField_eq_zero, hop]
    cases op <;> simp [opcodeBits, and_assoc]

/-! ### Round trips -/

theorem decode_commandWord {op : Opcode} {a : BitVec 1} {l : BitVec 16} (ha : a = 0 ∨ op = .init)
    (hl : l = 0 ∨ op = .update ∨ op = .compress) :
    decode (commandWord op a l) = .ok (instrOf op (algOfBit a) l.toNat) := by
  rw [decode_eq_ok]
  exact ⟨op, by simpa using ⟨ha, hl⟩⟩

theorem algBit_algOfBit (a : BitVec 1) : algBit (algOfBit a) = a := by
  revert a
  decide

theorem encode_instrOf {op : Opcode} {a : BitVec 1} {l : BitVec 16} (ha : a = 0 ∨ op = .init)
    (hl : l = 0 ∨ op = .update ∨ op = .compress) :
    encode (instrOf op (algOfBit a) l.toNat) = commandWord op a l := by
  cases op <;> simp_all [instrOf, encode, algBit_algOfBit]

theorem wellFormed_instrOf (op : Opcode) (alg : Alg) (l : BitVec 16) :
    wellFormed (instrOf op alg l.toNat) = true := by
  have hlt := l.isLt
  cases op <;> simp [instrOf, wellFormed, lenFits, hlt]

theorem opcField_encode_instrOf (op : Opcode) (alg : Alg) (n : Nat) :
    opcField (encode (instrOf op alg n)) = opcodeBits op := by
  cases op <;> simp [instrOf, encode]

/-- Different opcodes give different commands: their words differ in OPC. -/
theorem instrOf_opcode {o p : Opcode} {a b : Alg} {m n : Nat} (h : instrOf o a m = instrOf p b n) : o = p := by
  apply opcodeBits_injective
  rw [← opcField_encode_instrOf o a m, h, opcField_encode_instrOf]

/-- Settles O1: the word of each command is built from fields that pass the checks of its opcode. -/
theorem encodedCommandsDecodeBack : Obligations.EncodedCommandsDecodeBack := by
  have hlen : ∀ {n : Nat}, lenFits n = true → (BitVec.ofNat 16 n).toNat = n := fun h =>
    Nat.mod_eq_of_lt (of_decide_eq_true h)
  intro i hi
  cases i with
  | init alg =>
    refine (decode_commandWord (.inr rfl) (.inl rfl)).trans ?_
    cases alg <;> rfl
  | update n =>
    refine (decode_commandWord (.inl rfl) (.inr (.inl rfl))).trans ?_
    rw [hlen hi, instrOf]
  | compress n =>
    refine (decode_commandWord (.inl rfl) (.inr (.inr rfl))).trans ?_
    rw [hlen hi, instrOf]
  | finalize | digest | reset | freset | readh => exact decode_commandWord (.inl rfl) (.inl rfl)

/-- Settles O2: an accepted word has the fields of its command's word. -/
theorem decodedWordsEncodeBack : Obligations.DecodedWordsEncodeBack := by
  intro w i h
  obtain ⟨op, hopc, hrsv, halg, hlen, rfl⟩ := (decode_eq_ok w i).1 h
  refine ⟨?_, wellFormed_instrOf ..⟩
  rw [encode_instrOf halg hlen]
  apply word_eq_of_fields <;> simp [hopc, hrsv]

/-! ### The match and mask table (R103) -/

/-- The mask of a row: every bit but the fields its command uses. -/
def rowMask : Opcode → Word
  | .init => 0xFFFEFFFF
  | .update | .compress => 0xFFFF0000
  | .finalize | .digest | .reset | .freset | .readh => 0xFFFFFFFF

/-- The match of a row: its command word with ALG and LEN 0. -/
def rowMatch (op : Opcode) : Word := commandWord op 0 0

theorem and_mask_eq_zero {n : Nat} (x : BitVec n) (free : Prop) [Decidable free] :
    x &&& (if free then 0 else BitVec.allOnes n) = 0 ↔ x = 0 ∨ free := by
  by_cases h : free <;> simp [h]

theorem and_rowMask_eq_rowMatch {w : Word} {op : Opcode} :
    w &&& rowMask op = rowMatch op ↔ opcField w = opcodeBits op ∧ rsvField w = 0 ∧
      (algField w = 0 ∨ op = .init) ∧ (lenField w = 0 ∨ op = .update ∨ op = .compress) := by
  have hopc : opcField (rowMask op) = BitVec.allOnes 8 := by cases op <;> rfl
  have hrsv : rsvField (rowMask op) = BitVec.allOnes 7 := by cases op <;> rfl
  have halg : algField (rowMask op) = if op = .init then 0 else BitVec.allOnes 1 := by cases op <;> rfl
  have hlen : lenField (rowMask op) = if op = .update ∨ op = .compress then 0 else BitVec.allOnes 16 := by
    cases op <;> rfl
  rw [mask_eq_iff_fields, hopc, hrsv, halg, hlen, BitVec.and_allOnes, BitVec.and_allOnes, rowMatch,
    opcField_commandWord, rsvField_commandWord, algField_commandWord, lenField_commandWord,
    and_mask_eq_zero, and_mask_eq_zero]

/-- A word meets a row exactly when the decoder reads the row's command from it. -/
theorem and_rowMask_iff_decode (w : Word) (op : Opcode) :
    w &&& rowMask op = rowMatch op ↔
      decode w = .ok (instrOf op (algOfBit (algField w)) (lenField w).toNat) := by
  rw [and_rowMask_eq_rowMatch, decode_eq_ok]
  constructor
  · rintro ⟨hopc, hrsv, halg, hlen⟩
    exact ⟨op, hopc, hrsv, halg, hlen, rfl⟩
  · rintro ⟨o, hopc, hrsv, halg, hlen, hi⟩
    obtain rfl := instrOf_opcode hi
    exact ⟨hopc, hrsv, halg, hlen⟩

/-- A word that meets no row is illegal. -/
theorem decode_error_of_no_row {w : Word} (h : ∀ op, w &&& rowMask op ≠ rowMatch op) :
    ∃ e, decode w = .error e := by
  cases hd : decode w with
  | error e => exact ⟨e, rfl⟩
  | ok i =>
    obtain ⟨op, -, -, -, -, rfl⟩ := (decode_eq_ok w i).1 hd
    exact absurd ((and_rowMask_iff_decode w op).2 hd) (h op)

/-- Settles O3, a row by its opcode each. -/
theorem matchAndMaskSelectTheCommand : Obligations.MatchAndMaskSelectTheCommand := by
  intro w
  have hrow := and_rowMask_iff_decode w
  refine ⟨?_, hrow .update, hrow .finalize, hrow .digest, hrow .reset, hrow .freset, hrow .compress,
    hrow .readh, fun hinit hupdate hfinalize hdigest hreset hfreset hcompress hreadh => ?_⟩
  · rw [← algOfBit_algField]
    exact hrow .init
  · exact decode_error_of_no_row fun
      | .init => hinit
      | .update => hupdate
      | .finalize => hfinalize
      | .digest => hdigest
      | .reset => hreset
      | .freset => hfreset
      | .compress => hcompress
      | .readh => hreadh

end Sys2Proof

/-! Illegal words and the fault they take, and the step at a command (30_encoding.md R100, R106, R108, R111). -/

namespace Sys2Proof.Machine

/-- An illegal word outside HALTED takes Fault(ILLEGAL) (R106). -/
theorem step_of_illegal {s : State} {w : Word} {rest : List Word} {e : Illegal} (hr : s.rst = false)
    (hh : s.host.head? ≠ some .assertRst) (hc : s.cmd = w :: rest) (hp : s.phase ≠ .halted)
    (hd : decode w = .error e) : step s = .next (s.raiseFault .illegal) := by
  have hturn : turn s = .illegal := by
    rw [turn_at_word hr hh hc, hd]
    cases h : s.phase with
    | halted => exact absurd h hp
    | uninit | active => rfl
  simp only [step, hturn]

/-- In HALTED every command is discarded (R273). -/
theorem exec_halted {s : State} (hp : s.phase = .halted) (i : Instr) : exec i s = .next s.discardWord := by
  cases i with
  | init alg => simp only [exec, execInit, hp]
  | _ => exact whenActive_halted hp _

/-- COMPRESS of another length than a block takes Fault(BLOCK_SIZE) (R180). -/
theorem exec_compress_of_ne {s : State} {len : Nat} (hp : s.phase = .active) (hl : len ≠ 64) :
    exec (.compress len) s = .next (s.raiseFault .blockSize) := by
  rw [exec, execCompress, whenActive_active hp, if_pos hl]

/-- Settles O4: a bad opcode is illegal whatever else the word holds, and with a known one the other three
fields decide. -/
theorem illegalWordsAndTheirFault : Obligations.IllegalWordsAndTheirFault := by
  refine ⟨fun w => ?_, fun s w rest e hr hh hc hp hd => ?_, fun s len hlt hne hp => ⟨?_, ?_⟩⟩
  · rcases opcode_bad_or_known (opcField w) with hbad | ⟨op, hop⟩
    · exact iff_of_true ⟨_, decode_of_bad_opcode hbad⟩ (.inl hbad)
    · have hname : ∀ p, opcField w ≠ opcodeBits p ↔ op ≠ p := fun p => by rw [hop, Ne, opcodeBits_eq_iff]
      rw [decode_illegal_iff hop, algField_ne_zero, ← hname, ← hname, ← hname]
      exact (or_iff_right (opcField_not_bad hop)).symm
  · rw [step_of_illegal hr hh hc hp hd, State.raiseFault, State.consume, hc]
    rfl
  · exact encodedCommandsDecodeBack _ (decide_eq_true hlt)
  · exact exec_compress_of_ne hp hne

/-- Settles O5, a check by its lemma each; the fault does not depend on the phase. -/
theorem checksAreMadeInOrder : Obligations.ChecksAreMadeInOrder :=
  ⟨decode_eq_opcode_iff, decode_eq_reserved_iff, decode_eq_algorithm_iff, decode_eq_length_iff,
    fun _ _ _ _ hr hh hc hp hd => ⟨_, step_of_illegal hr hh hc (by simp [hp]) hd, rfl⟩⟩

/-- Settles O6: closed words, each decoded by evaluation. -/
theorem exampleWordsDecode : Obligations.ExampleWordsDecode := by
  unfold Obligations.ExampleWordsDecode
  decide

/-- Settles O7: in HALTED the step and exec discard the same word; elsewhere `waits` decides the turn. -/
theorem stepRunsTheCommandAtCpos : Obligations.StepRunsTheCommandAtCpos := by
  refine fun s w rest i hr hh hc hd => ⟨fun hw => ?_, fun hw => ⟨exec_of_waits hw, ?_⟩⟩
  · cases hp : s.phase with
    | halted => rw [step_halted_discards hr hh hc hp, exec_halted hp]
    | uninit | active =>
      have hturn : turn s = .command i := by simp [turn_at_word hr hh hc, hp, hd, hw]
      simp only [step, hturn]
  · simp only [step, ((commandWaits_iff hc hd).2 hw).turn_eq_host]

/-- What an enabled command consumes: its length where it completes, its command word where it faults
(R100, R272). -/
theorem ExecCase.consumes_length_or_faults {i : Instr} {s t : State} (h : ExecCase i s t) :
    (t.phase = .active ∧ t.cpos = s.cpos + commandLength i ∧ t.cmd = s.cmd.drop (commandLength i)) ∨
      ∃ c, t = s.raiseFault c := by
  cases h with
  | init => exact .inl ⟨rfl, rfl, rfl⟩
  | finalize hp | digest hp | reset hp | freset hp | readh hp => exact .inl ⟨hp, rfl, rfl⟩
  | update _ hp _ hu =>
    rw [absorb_frame hu]
    exact .inl ⟨hp, rfl, rfl⟩
  | compress hp _ hu =>
    rw [compressIntoH_frame hu]
    exact .inl ⟨hp, rfl, rfl⟩
  | notInit | updateBlockSize | finalizeBlockSize | noResult | compressLen | compressBlockSize =>
    exact .inr ⟨_, rfl⟩

/-- Settles O8: the lengths by definition, and the words consumed from the cases of exec. -/
theorem commandsConsumeTheirLength : Obligations.CommandsConsumeTheirLength := by
  refine ⟨fun _ => rfl, fun _ => rfl, rfl, rfl, rfl, rfl, rfl, rfl, fun i s t hp hw h => ?_⟩
  rcases (exec_next_cases hw hp h).consumes_length_or_faults with ⟨hact, hlen⟩ | ⟨c, rfl⟩
  · exact ⟨fun _ => hlen, fun hh => nomatch hact.symm.trans hh⟩
  · exact ⟨fun ha => (nomatch ha), fun _ => ⟨rfl, rfl⟩⟩

end Sys2Proof.Machine

/-! Payload words and their bytes, and the assembler's lines (30_encoding.md R104, R109 to R111). -/

namespace Sys2Proof.Machine

/-! ### Payload -/

theorem be32Bytes_getElem? (x : Word) {j : Nat} (hj : j < 4) :
    (be32Bytes x)[j]? = some (x.extractLsb' (24 - 8 * j) 8) := by
  match j, hj with
  | 0, _ | 1, _ | 2, _ | 3, _ => rfl

/-- Byte i of a sequence of words is byte i mod 4 of word i div 4 (R104). -/
theorem flatMap_be32Bytes_getElem? {p : List Word} {i : Nat} {x : Word} (hx : p[i / 4]? = some x) :
    (p.flatMap be32Bytes)[i]? = (be32Bytes x)[i % 4]? := by
  induction p generalizing i with
  | nil => simp at hx
  | cons y p ih =>
    rw [List.flatMap_cons]
    by_cases hi : i < 4
    · rw [Nat.div_eq_of_lt hi, List.getElem?_cons_zero, Option.some.injEq] at hx
      rw [List.getElem?_append_left hi, Nat.mod_eq_of_lt hi, hx]
    · have hdiv : i / 4 = (i - 4) / 4 + 1 := by omega
      have hmod : i % 4 = (i - 4) % 4 := by omega
      rw [hdiv, List.getElem?_cons_succ] at hx
      rw [List.getElem?_append_right (not_lt.1 hi), be32Bytes_length, ih hx, hmod]

theorem payloadBytes_getElem? {p : List Word} {n i : Nat} {x : Word} (hi : i < n) (hx : p[i / 4]? = some x) :
    (payloadBytes p n)[i]? = (be32Bytes x)[i % 4]? := by
  rw [payloadBytes, List.getElem?_take_of_lt hi, flatMap_be32Bytes_getElem? hx]

/-- In(k) answers the words behind the command word, in order (R104). -/
theorem payload_getElem? {s : State} {k j : Nat} {p : List Word} (h : s.payload k = some p) (hj : j < k) :
    p[j]? = s.cmd[j + 1]? := by
  obtain ⟨-, rfl⟩ := payload_eq_some.1 h
  rw [List.getElem?_take_of_lt hj, List.getElem?_drop, Nat.add_comm]

/-- Settles O9: In(k) is a piece of the stream, and byte i of the payload is a byte of word i div 4. -/
theorem payloadBytesAreBigEndian : Obligations.PayloadBytesAreBigEndian := by
  refine ⟨fun s k p h => ⟨payload_length h, fun j hj => payload_getElem? h hj⟩,
    fun s k hk => payload_eq_some.2 ⟨Nat.le_sub_of_add_le hk, rfl⟩,
    fun p n hp => ⟨payloadBytes_length hp, fun i x hi hx => ?_⟩⟩
  rw [payloadBytes_getElem? hi hx, be32Bytes_getElem? x (Nat.mod_lt i (by decide))]

/-! ### Packing (R109) -/

theorem packBytes_length (d : List Byte) : (packBytes d).length = wordsForBytes d.length := by
  simp [packBytes]

theorem packBytes_getElem? {d : List Byte} {j : Nat} (hj : j < wordsForBytes d.length) :
    (packBytes d)[j]? = some (packWord (d.drop (4 * j))) := by
  simp [packBytes, hj]

/-- The word of up to four bytes carries them, first byte first, and 0x00 behind them (R74). -/
theorem be32Bytes_packWord_getElem? (d : List Byte) {j : Nat} (hj : j < 4) :
    (be32Bytes (packWord d))[j]? = some (d[j]?.getD 0) := by
  rw [packWord, be32Bytes_be32]
  match j, hj with
  | 0, _ | 1, _ | 2, _ | 3, _ => rfl

theorem payloadBytes_packBytes (d : List Byte) : payloadBytes (packBytes d) d.length = d := by
  have hlen : (payloadBytes (packBytes d) d.length).length = d.length := payloadBytes_length (packBytes_length d)
  refine List.ext_getElem? fun i => ?_
  by_cases hi : i < d.length
  · have hword : i / 4 < wordsForBytes d.length := by
      rw [wordsForBytes]
      omega
    rw [payloadBytes_getElem? hi (packBytes_getElem? hword),
      be32Bytes_packWord_getElem? _ (Nat.mod_lt i (by decide)), List.getElem?_drop, Nat.div_add_mod]
    simp [hi]
  · rw [List.getElem?_eq_none (hlen.trans_le (not_lt.1 hi)), List.getElem?_eq_none (not_lt.1 hi)]

/-- Settles O10: each byte read back is the byte packed at its place. -/
theorem packedPayloadReadsBack : Obligations.PackedPayloadReadsBack :=
  fun d => ⟨packBytes_length d, payloadBytes_packBytes d⟩

/-! ### The UPDATE line (R110) -/

theorem updatePieces_of_short (n : Nat) {d : List Byte} (h : d.length ≤ 65535) : updatePieces n d = [d] := by
  cases n with
  | zero => rfl
  | succ n => rw [updatePieces, if_pos h]

theorem updatePieces_of_long (n : Nat) {d : List Byte} (h : 65535 < d.length) :
    updatePieces (n + 1) d = d.take 65535 :: updatePieces n (d.drop 65535) := by
  rw [updatePieces, if_neg (not_le.2 h)]

/-- No byte is lost, whatever bounds the number of pieces. -/
theorem updatePieces_flatten (n : Nat) (d : List Byte) : (updatePieces n d).flatten = d := by
  induction n generalizing d with
  | zero => exact List.flatten_singleton
  | succ n ih =>
    rcases Nat.lt_or_ge 65535 d.length with h | h
    · rw [updatePieces_of_long n h, List.flatten_cons, ih, List.take_append_drop]
    · rw [updatePieces_of_short _ h, List.flatten_singleton]

/-- Where the bound admits all full pieces: ceil(|d| / 65535) pieces, and one where there is no byte. -/
theorem updatePieces_length {n : Nat} {d : List Byte} (hn : d.length ≤ 65535 * (n + 1)) :
    (updatePieces n d).length = max 1 ((d.length + 65534) / 65535) := by
  induction n generalizing d with
  | zero =>
    rw [updatePieces_of_short _ hn, List.length_singleton]
    omega
  | succ n ih =>
    rcases Nat.lt_or_ge 65535 d.length with h | h
    · have hdrop : (d.drop 65535).length = d.length - 65535 := List.length_drop
      rw [updatePieces_of_long n h, List.length_cons, ih (by omega), hdrop]
      omega
    · rw [updatePieces_of_short _ h, List.length_singleton]
      omega

theorem updatePieces_getElem?_of_short {n k : Nat} {d x : List Byte} (h : d.length ≤ 65535)
    (hx : (updatePieces n d)[k]? = some x) : x = (d.drop (65535 * k)).take 65535 := by
  rw [updatePieces_of_short n h, List.getElem?_singleton] at hx
  obtain ⟨rfl, hx⟩ := Option.ite_none_right_eq_some.1 hx
  rw [← Option.some.inj hx]
  exact (List.take_of_length_le h).symm

/-- Where the bound admits all full pieces, piece k is the bytes from 65535·k on, at most 65535 of them. -/
theorem updatePieces_getElem? {n k : Nat} {d x : List Byte} (hn : d.length ≤ 65535 * (n + 1))
    (hx : (updatePieces n d)[k]? = some x) : x = (d.drop (65535 * k)).take 65535 := by
  induction n generalizing d k with
  | zero => exact updatePieces_getElem?_of_short hn hx
  | succ n ih =>
    rcases Nat.lt_or_ge 65535 d.length with h | h
    · rw [updatePieces_of_long n h] at hx
      cases k with
      | zero => exact (Option.some.inj hx).symm
      | succ k =>
        have hdrop : (d.drop 65535).length = d.length - 65535 := List.length_drop
        rw [ih (by omega) hx, List.drop_drop, Nat.mul_succ, Nat.add_comm]
    · exact updatePieces_getElem?_of_short h hx

/-- Settles O11: the pieces are updatePieces with room for every full piece. -/
theorem updateLineExpandsInOrder : Obligations.UpdateLineExpandsInOrder := by
  refine ⟨fun d => ?_, fun _ => rfl, fun _ _ => rfl⟩
  have hn : d.length ≤ 65535 * (d.length / 65535 + 1) := by omega
  have hcount := updatePieces_length hn
  refine ⟨updatePieces (d.length / 65535) d, rfl, updatePieces_flatten _ d, fun k x hx => ?_, ?_, fun hd => ?_⟩
  · obtain ⟨hk, -⟩ := List.getElem?_eq_some_iff.1 hx
    have hpiece := updatePieces_getElem? hn hx
    have hlen : x.length = min 65535 (d.length - 65535 * k) := by rw [hpiece, List.length_take, List.length_drop]
    refine ⟨hpiece, decide_eq_true (by omega), fun hnext => by omega, fun hd => ?_⟩
    have hpos := List.length_pos_of_ne_nil hd
    exact List.ne_nil_of_length_pos (by omega)
  · rintro rfl
    rfl
  · have hpos := List.length_pos_of_ne_nil hd
    rw [hcount]
    omega

/-- Settles O12: closed lines, each assembled by evaluation. -/
theorem exampleLinesAssemble : Obligations.ExampleLinesAssemble := by
  unfold Obligations.ExampleLinesAssemble
  decide

end Sys2Proof.Machine

/-! Blocks, message schedules and rounds (40_compression.md R140 to R176): the schedule seen through its
window of 16 words, and a round loop as any sequence of working variables that follows it. -/

namespace Sys2Proof.Machine

/-! ### Blocks (R140, R141) -/

theorem formBlock_eq_some {d : List Byte} {b : Block} : formBlock d = some b ↔ b.bytes = d := by
  constructor
  · intro h
    rw [formBlock] at h
    split at h
    · cases h
      rfl
    · cases h
  · rintro rfl
    rw [formBlock, dif_pos b.size]

theorem formBlock_isSome {d : List Byte} : (formBlock d).isSome = true ↔ d.length = 64 := by
  constructor
  · intro h
    obtain ⟨b, hb⟩ := Option.isSome_iff_exists.1 h
    rw [← formBlock_eq_some.1 hb, b.size]
  · intro h
    rw [formBlock, dif_pos h, Option.isSome_some]

theorem blockWords_getElem (b : Block) (j : Fin 16) : (blockWords b)[j.val] = blockWord b j := by
  fin_cases j <;> rfl

theorem blockWord_toNat (b : Block) (j : Fin 16) :
    (blockWord b j).toNat =
      (b.bytes.getD (4 * j.val) 0).toNat * 2 ^ 24 + (b.bytes.getD (4 * j.val + 1) 0).toNat * 2 ^ 16 +
      (b.bytes.getD (4 * j.val + 2) 0).toNat * 2 ^ 8 + (b.bytes.getD (4 * j.val + 3) 0).toNat := by
  have hget (k : Nat) (hk : k < b.bytes.length) : b.bytes.getD k 0 = b.bytes[k] :=
    (List.getElem_eq_getD 0).symm
  have hsize := b.size
  rw [blockWord, be32_toNat, hget _ (by omega), hget _ (by omega), hget _ (by omega), hget _ (by omega)]

/-- Settles O26: what forms a block, and the number each word is. -/
theorem blockWordsAreBigEndian : Obligations.BlockWordsAreBigEndian :=
  ⟨fun _ => formBlock_isSome, fun _ _ => formBlock_eq_some.1,
    fun b j => by rw [blockWords_getElem, blockWord_toNat]⟩

/-! ### Schedules (R143, R151, R172) -/

theorem slideWindow_getElem (w : Vector Word 16) (x : Word) {j : Nat} (hj : j < 15) :
    (slideWindow w x)[j] = w[j + 1] := by
  interval_cases j <;> rfl

theorem slideWindow_last (w : Vector Word 16) (x : Word) : (slideWindow w x)[15] = x := rfl

section
variable {next : Vector Word 16 → Word}

theorem unrollSchedule_length (n : Nat) (w : Vector Word 16) : (unrollSchedule next n w).length = n := by
  induction n generalizing w with
  | zero => rfl
  | succ n ih => rw [unrollSchedule, List.length_cons, ih]

/-- The first words are the window's. -/
theorem unrollSchedule_getElem?_window {n t : Nat} (w : Vector Word 16) (hn : t < n) (ht : t < 16) :
    (unrollSchedule next n w)[t]? = some w[t] := by
  induction t generalizing n w with
  | zero =>
    obtain ⟨n, rfl⟩ := Nat.exists_eq_add_one_of_ne_zero hn.ne'
    rfl
  | succ t ih =>
    obtain ⟨n, rfl⟩ := Nat.exists_eq_add_one_of_ne_zero (Nat.ne_zero_of_lt hn)
    rw [unrollSchedule, List.getElem?_cons_succ, ih _ (by omega) (by omega), slideWindow_getElem w _ (by omega)]

/-- Word k + 16 is `next` of the 16 words before it. -/
theorem unrollSchedule_recurrence {n k : Nat} (w : Vector Word 16) (hk : k + 16 < n) :
    ∃ v : Vector Word 16,
      (∀ j (hj : j < 16), (unrollSchedule next n w)[k + j]? = some v[j]) ∧
      (unrollSchedule next n w)[k + 16]? = some (next v) := by
  induction k generalizing n w with
  | zero =>
    refine ⟨w, fun j hj => ?_, ?_⟩
    · rw [Nat.zero_add, unrollSchedule_getElem?_window w (by omega) hj]
    · obtain ⟨n, rfl⟩ := Nat.exists_eq_add_one_of_ne_zero (Nat.ne_zero_of_lt hk)
      rw [unrollSchedule, Nat.zero_add, List.getElem?_cons_succ,
        unrollSchedule_getElem?_window _ (by omega) (by omega), slideWindow_last]
  | succ k ih =>
    obtain ⟨n, rfl⟩ := Nat.exists_eq_add_one_of_ne_zero (Nat.ne_zero_of_lt hk)
    obtain ⟨v, hv, hnext⟩ := ih (slideWindow w (next w)) (by omega : k + 16 < n)
    refine ⟨v, fun j hj => ?_, ?_⟩
    · rw [unrollSchedule, Nat.add_right_comm, List.getElem?_cons_succ, hv j hj]
    · rw [unrollSchedule, Nat.add_right_comm, List.getElem?_cons_succ, hnext]

/-- The same by distance back from word t, as R151 and R172 count: word t - d stands at 16 - d of the window. -/
theorem unrollSchedule_eq_next {n t : Nat} (w : Vector Word 16) (hlow : 16 ≤ t) (hhigh : t < n) :
    ∃ v : Vector Word 16,
      (∀ (d : Nat) (_ : 0 < d) (x : Word), d ≤ 16 → (unrollSchedule next n w)[t - d]? = some x → v[16 - d] = x) ∧
      (unrollSchedule next n w)[t]? = some (next v) := by
  obtain ⟨k, rfl⟩ := Nat.exists_eq_add_of_le' hlow
  obtain ⟨v, hv, hnext⟩ := unrollSchedule_recurrence (next := next) w hhigh
  refine ⟨v, fun d hpos x hd hx => ?_, hnext⟩
  rw [Nat.add_sub_assoc hd, hv (16 - d) (by omega)] at hx
  exact Option.some.inj hx

/-- A window that its own next word leaves as it is repeats its first word. -/
theorem unrollSchedule_of_fixed {w : Vector Word 16} (h : slideWindow w (next w) = w) (n : Nat) :
    unrollSchedule next n w = List.replicate n w[0] := by
  induction n with
  | zero => rfl
  | succ n ih => rw [unrollSchedule, h, ih, List.replicate_succ]

end

/-- Settles O27: the words t-16 to t-1 are a window, and word t is `nextSha1` of it. -/
theorem sha1ScheduleRecurrence : Obligations.Sha1ScheduleRecurrence := by
  refine fun m => ⟨unrollSchedule_length 80 m,
    fun t => unrollSchedule_getElem?_window m (by omega) t.isLt, fun t a b c d hlow hhigh ha hb hc hd => ?_⟩
  obtain ⟨v, hword, hnext⟩ := unrollSchedule_eq_next (next := nextSha1) m hlow hhigh
  rw [← hword 3 (by decide) a (by decide) ha, ← hword 8 (by decide) b (by decide) hb,
    ← hword 14 (by decide) c (by decide) hc, ← hword 16 (by decide) d (by decide) hd]
  exact hnext

/-- Settles O28, likewise with `nextSha256`. -/
theorem sha256ScheduleRecurrence : Obligations.Sha256ScheduleRecurrence := by
  refine fun m => ⟨unrollSchedule_length 64 m,
    fun t => unrollSchedule_getElem?_window m (by omega) t.isLt, fun t a b c d hlow hhigh ha hb hc hd => ?_⟩
  obtain ⟨v, hword, hnext⟩ := unrollSchedule_eq_next (next := nextSha256) m hlow hhigh
  rw [← hword 2 (by decide) a (by decide) ha, ← hword 7 (by decide) b (by decide) hb,
    ← hword 15 (by decide) c (by decide) hc, ← hword 16 (by decide) d (by decide) hd]
  exact hnext

/-! ### Round loops (R150, R154, R170, R174) -/

/-- A fold ends at the last term of any sequence that follows its steps. -/
theorem foldl_eq_of_follows {σ α : Type} {f : σ → α → σ} {l : List α} {v : Nat → σ}
    (h : ∀ t x, l[t]? = some x → v (t + 1) = f (v t) x) : l.foldl f (v 0) = v l.length := by
  induction l generalizing v with
  | nil => rfl
  | cons x l ih =>
    rw [List.foldl_cons, ← h 0 x rfl]
    exact ih (v := fun t => v (t + 1)) fun t y hy => h (t + 1) y hy

/-- The round loop of SHA-1 on a schedule of 80 words (R150). -/
theorem roundsSha1_eq_of_follows {w : List Word} {v : Nat → Sha1Vars} (hw : w.length = 80)
    (h : ∀ t x, t < 80 → w[t]? = some x → v (t + 1) = roundSha1 t (v t) x) : roundsSha1 w (v 0) = v 80 := by
  have hlen : ((List.range 80).zip w).length = 80 := by rw [List.length_zip, hw, List.length_range, min_self]
  rw [roundsSha1, foldl_eq_of_follows fun t p hp => ?_, hlen]
  obtain ⟨hindex, hword⟩ := List.getElem?_zip_eq_some.1 hp
  obtain ⟨ht, hround⟩ := List.getElem?_eq_some_iff.1 hindex
  rw [List.getElem_range] at hround
  rw [← hround]
  exact h t p.2 (by simpa using ht) hword

/-- The round loop of SHA-256 on a schedule of 64 words (R170). -/
theorem roundsSha256_eq_of_follows {w : List Word} {v : Nat → Sha256Vars} (hw : w.length = 64)
    (h : ∀ t k x, t < 64 → sha256K[t]? = some k → w[t]? = some x → v (t + 1) = roundSha256 (v t) k x) :
    roundsSha256 w (v 0) = v 64 := by
  have hlen : (sha256K.zip w).length = 64 := by rw [List.length_zip, hw]; rfl
  rw [roundsSha256, foldl_eq_of_follows fun t p hp => ?_, hlen]
  obtain ⟨hconst, hword⟩ := List.getElem?_zip_eq_some.1 hp
  obtain ⟨ht, -⟩ := List.getElem?_eq_some_iff.1 hconst
  exact h t p.1 p.2 ht hconst hword

/-- Settles O29: the statement's round is `roundSha1`, its quartiles bounded by ≤ instead of <. -/
theorem sha1CompressionFollowsTheRounds : Obligations.Sha1CompressionFollowsTheRounds := by
  rintro _ b v rfl h
  have hrounds : roundsSha1 (scheduleSha1 (blockWords b)) (v 0) = v 80 := by
    refine roundsSha1_eq_of_follows (unrollSchedule_length ..) fun t w ht hw => (h t w ht hw).trans ?_
    simp only [roundSha1, sha1F, sha1K, ch, maj, parity, ← Nat.lt_succ_iff, Nat.succ_eq_add_one, Nat.reduceAdd]
  rw [compressSha1, hrounds]

/-- Settles O30: the statement's round is `roundSha256`, written out. -/
theorem sha256CompressionFollowsTheRounds : Obligations.Sha256CompressionFollowsTheRounds := by
  rintro _ b v rfl h
  have hrounds : roundsSha256 (scheduleSha256 (blockWords b)) (v 0) = v 64 :=
    roundsSha256_eq_of_follows (unrollSchedule_length ..) h
  rw [compressSha256, hrounds]

/-! ### The corner cases (R156, R176) -/

/-- Settles O31: the zero window stays as it is, so both zero schedules repeat it; the rest are closed words
and compressions of closed blocks, evaluated. -/
theorem paddedAbcCompresses : Obligations.PaddedAbcCompresses := by
  refine ⟨unrollSchedule_of_fixed (by decide) 80, unrollSchedule_of_fixed (by decide) 64, by decide, by decide,
    ?_, by decide, by decide, by decide, by decide, rfl, by decide, ?_, ?_⟩ <;>
  decide +kernel

end Sys2Proof.Machine

/-! COMPRESS and READH (40_compression.md R180, R185), and whose fault BLOCK_SIZE is (R141, R277). -/

namespace Sys2Proof.Machine

/-! ### COMPRESS -/

theorem compressIntoH_of_block {s : State} {w : StateWords} {d : List Byte}
    (hw : readFile s.mode s.h = some w) (hd : d.length = 64) :
    s.compressIntoH d = .ok { s with h := writeFile (compress w ⟨d, hd⟩) s.h } :=
  compressIntoH_eq_ok.2 ⟨w, _, hw, compressBytes_ok w hd, rfl⟩

/-- The 16 payload words of a COMPRESS carry one block, and no byte of them is ignored (R104, R180). -/
theorem payloadBytes_block {p : List Word} (hp : p.length = 16) : payloadBytes p 64 = p.flatMap be32Bytes :=
  List.take_of_length_le (by rw [flatMap_be32Bytes_length, hp])

theorem exec_compress_of_payload {s : State} {p : List Word} (hp : s.phase = .active)
    (hpay : s.payload 16 = some p) :
    exec (.compress 64) s = conclude s 17 (s.compressIntoH (payloadBytes p 64)) := by
  simp only [exec, execCompress, whenActive_active hp, hpay, ne_eq, not_true, if_false]

/-- Settles O33: the payload's bytes are a block, so the compression into H succeeds; another length and UNINIT
take their faults. -/
theorem compressResult : Obligations.CompressResult := by
  refine ⟨by decide, fun s p w hp hpay hw => ?_, fun s len hp hl => exec_compress_of_ne hp hl,
    fun s len hp => exec_uninit (fun _ h => nomatch h) hp⟩
  have hlen : p.length = 16 := payload_length hpay
  have hsize : (payloadBytes p 64).length = 64 := payloadBytes_length hlen
  refine ⟨⟨_, hsize⟩, payloadBytes_block hlen, ?_⟩
  rw [exec_compress_of_payload hp hpay, compressIntoH_of_block hw hsize]
  rfl

/-! ### BLOCK_SIZE -/

/-- FINALIZE compresses 64-byte pieces only, so it aborts on ⊥ only (R141, R215). -/
theorem finalWords_error {s : State} {e : Abort} (h : s.finalWords = .error e) : e = .bottom := by
  unfold State.finalWords at h
  split at h
  · cases h
    rfl
  · rename_i r hr
    split at h
    · cases h
      rfl
    · rename_i w hw
      obtain ⟨w', hw'⟩ := compressAll_ok w (fullBlocks_sizes (pad r s.bitlen))
      exact nomatch hw'.symm.trans h

/-- An enabled command raises BLOCK_SIZE only as a COMPRESS of another length (R141, R277). -/
theorem ExecCase.blockSize_raiser {i : Instr} {s t : State} (h : ExecCase i s t) (hs : s.err ≠ .blockSize)
    (ht : t.err = .blockSize) : ∃ len, i = .compress len ∧ len ≠ 64 := by
  cases h with
  | compressLen len _ hl => exact ⟨len, rfl, hl⟩
  | updateBlockSize _ _ _ hu => exact nomatch absorb_error hu
  | finalizeBlockSize _ hw => exact nomatch finalWords_error hw
  | compressBlockSize _ hpay hu =>
    exact nomatch compressIntoH_error (payloadBytes_length (payload_length hpay)) hu
  | update _ _ _ hu =>
    rw [absorb_frame hu] at ht
    exact absurd ht hs
  | compress _ _ hu =>
    rw [compressIntoH_frame hu] at ht
    exact absurd ht hs
  | notInit | noResult => exact nomatch ht
  | init | finalize | digest | reset | freset | readh => exact absurd ht hs

/-- Settles O34: a held command and a discarded one leave ERR alone, and an enabled one raises BLOCK_SIZE only
as a COMPRESS of another length. -/
theorem onlyCompressRaisesBlockSize : Obligations.OnlyCompressRaisesBlockSize := by
  intro i s t h hs ht
  by_cases hh : s.phase = .halted
  · rw [exec_halted hh] at h
    cases h
    exact absurd ht hs
  · cases hw : waits i s with
    | true =>
      rw [exec_of_waits hw] at h
      cases h
      exact absurd ht hs
    | false => exact (exec_next_cases hw hh h).blockSize_raiser hs ht

/-! ### READH -/

theorem readFile_sha1 {r : RegFile} {v : Sha1Vars} (h0 : r.e0 = some v.a) (h1 : r.e1 = some v.b)
    (h2 : r.e2 = some v.c) (h3 : r.e3 = some v.d) (h4 : r.e4 = some v.e) :
    readFile .sha1 r = some (.sha1 v) := by
  simp only [readFile, h0, h1, h2, h3, h4]

theorem readFile_sha256 {r : RegFile} {v : Sha256Vars} (h0 : r.e0 = some v.a) (h1 : r.e1 = some v.b)
    (h2 : r.e2 = some v.c) (h3 : r.e3 = some v.d) (h4 : r.e4 = some v.e) (h5 : r.e5 = some v.f)
    (h6 : r.e6 = some v.g) (h7 : r.e7 = some v.h) : readFile .sha256 r = some (.sha256 v) := by
  simp only [readFile, h0, h1, h2, h3, h4, h5, h6, h7]

theorem hasRoom_iff {s : State} : s.hasRoom = true ↔ s.out.length + stateWordCount s.mode ≤ Config.outDepth :=
  decide_eq_true_iff

theorem hasRoom_eq_false {s : State} :
    s.hasRoom = false ↔ Config.outDepth < s.out.length + stateWordCount s.mode := by
  rw [← Bool.not_eq_true, hasRoom_iff, not_le]

/-- READH with room appends the words of H, entry 0 first (R185). -/
theorem exec_readh_of_room {s : State} {w : StateWords} (hp : s.phase = .active) (hr : s.hasRoom = true)
    (hw : readFile s.mode s.h = some w) : exec .readh s = .next ((s.pushOut w).consume 1) := by
  simp [exec, execReadh, whenActive_active hp, hr, outputFile_eq_ok.2 ⟨w, hw, rfl⟩, conclude]

theorem waits_readh {s : State} (hp : s.phase = .active) : waits .readh s = !s.hasRoom := by
  simp only [waits, hp]

/-- Settles O35: the words read under either algorithm, and the hold by `waits`. -/
theorem readhResult : Obligations.ReadhResult := by
  refine ⟨by decide, fun s a b c d e hp hm hroom h0 h1 h2 h3 h4 => ?_,
    fun s a b c d e f g h hp hm hroom h0 h1 h2 h3 h4 h5 h6 h7 => ?_, fun s hp hfull => ?_,
    fun s hp => exec_uninit (fun _ h => nomatch h) hp⟩
  · have hw : readFile s.mode s.h = some (.sha1 ⟨a, b, c, d, e⟩) := hm ▸ readFile_sha1 h0 h1 h2 h3 h4
    exact exec_readh_of_room hp (hasRoom_iff.2 (hm ▸ hroom)) hw
  · have hw : readFile s.mode s.h = some (.sha256 ⟨a, b, c, d, e, f, g, h⟩) :=
      hm ▸ readFile_sha256 h0 h1 h2 h3 h4 h5 h6 h7
    exact exec_readh_of_room hp (hasRoom_iff.2 (hm ▸ hroom)) hw
  · have hwait : waits .readh s = true := by rw [waits_readh hp, hasRoom_eq_false.2 hfull]; rfl
    exact ⟨hwait, exec_of_waits hwait⟩

end Sys2Proof.Machine

/-! The accumulator (41_update.md): what INIT, UPDATE, RESET and FINALIZE answer, and what absorption and
finalization compute together. The state words and the unprocessed bytes are all that absorb reads, so one
command after another is one compression of the blocks of all their bytes. -/

namespace Sys2Proof.Machine

/-! ### UPDATE -/

/-- UPDATE with its payload present is one absorption of the payload's bytes (R205). -/
theorem exec_update_of_absorb {s t : State} {len : Nat} {p : List Word} (hp : s.phase = .active)
    (hpay : s.payload (wordsForBytes len) = some p) (ht : s.absorb (payloadBytes p len) = .ok t) :
    exec (.update len) s = .next (t.consume (1 + wordsForBytes len)) := by
  simp only [exec, execUpdate, whenActive_active hp, hpay, ht, conclude]

/-- Case B of R206: short of a block, absorb only appends to BUF. -/
theorem absorb_of_short {s : State} {d : List Byte} (h : s.buflen.toNat + d.length < 64) :
    s.absorb d = .ok (s.appendBuf d) := if_pos h

theorem absorb_nil (s : State) : s.absorb [] = .ok s := by
  have hadd : s.buflen + BitVec.ofNat 6 ([] : List Byte).length = s.buflen := BitVec.add_zero s.buflen
  rw [absorb_of_short (d := []) s.buflen.isLt, State.appendBuf, hadd]
  rfl

theorem State.appendBuf_buf_outside {s : State} {d : List Byte} {i : Nat} (hi : i < 64)
    (h : i < s.buflen.toNat ∨ s.buflen.toNat + d.length ≤ i) : (s.appendBuf d).buf[i] = s.buf[i] := by
  rw [State.appendBuf_buf, writeBytes_get _ _ _ _ hi, if_neg (by omega)]

theorem State.appendBuf_buf_inside {s : State} {d : List Byte} {i : Nat} (hi : i < 64)
    (hlow : s.buflen.toNat ≤ i) (hhigh : i < s.buflen.toNat + d.length) :
    (s.appendBuf d).buf[i] = d[i - s.buflen.toNat]? := by
  rw [State.appendBuf_buf, writeBytes_get _ _ _ _ hi, if_pos ⟨hlow, hhigh⟩]

/-- Settles O38: UPDATE is the append to BUF, whose entries are read off one by one. -/
theorem shortUpdateOnlyAppends : Obligations.ShortUpdateOnlyAppends := by
  intro s len p hp hpay hshort
  have hlen : (payloadBytes p len).length = len := payloadBytes_length (payload_length hpay)
  have hfit : s.buflen.toNat + (payloadBytes p len).length < 64 := by rwa [hlen]
  refine ⟨_, exec_update_of_absorb hp hpay (absorb_of_short hfit), ?_, fun i hi => ?_, fun i hlow hhigh => ?_,
    (Nat.add_assoc ..).symm, rfl, rfl, rfl, rfl, rfl, rfl, rfl, rfl, rfl, rfl, rfl, rfl, rfl, rfl⟩
  · rw [State.consume_buflen, buflen_appendBuf hfit, hlen]
  · exact State.appendBuf_buf_outside i.isLt (by rwa [hlen])
  · exact State.appendBuf_buf_inside i.isLt hlow (by rwa [hlen])

/-- The words a compression of what was read gives are read back once written. -/
theorem readFile_writeFile_of_compressAll {m : Alg} {r : RegFile} {w w' : StateWords} {ds : List (List Byte)}
    (hw : readFile m r = some w) (hc : compressAll w ds = .ok w') : readFile m (writeFile w' r) = some w' :=
  readFile_writeFile ((compressAll_alg hc).trans (readFile_alg hw)) r

/-- What absorb leaves of the four elements it writes: the blocks of the buffered and the new bytes together
compressed into H and counted in PROCESSED, and their tail buffered (R206, R207). -/
theorem absorb_result {s : State} {r : List Byte} {w : StateWords} (d : List Byte)
    (hr : s.unprocessed = some r) (hw : readFile s.mode s.h = some w) :
    ∃ t w', s.absorb d = .ok t ∧ compressAll w (fullBlocks (r ++ d)) = .ok w' ∧ t.h = writeFile w' s.h ∧
      t.unprocessed = some (leftover (r ++ d)) ∧ t.buflen.toNat = (s.buflen.toNat + d.length) % 64 ∧
      t.processed = s.processed + BitVec.ofNat 64 (64 * ((s.buflen.toNat + d.length) / 64)) := by
  obtain ⟨w', hc, ha⟩ := absorb_eq (d := d) hr hw
  have hlen : (r ++ d).length = s.buflen.toNat + d.length := by rw [List.length_append, unprocessed_length hr]
  have htail : (leftover (r ++ d)).length < 64 := by
    rw [leftover_length]
    exact Nat.mod_lt _ (by decide)
  refine ⟨_, w', ha, hc, rfl, ?_, ?_, by rw [← hlen]⟩
  · by_cases hshort : (r ++ d).length < 64
    · have hfit : s.buflen.toNat + d.length < 64 := hlen ▸ hshort
      rw [← Except.ok.inj ((absorb_of_short hfit).symm.trans ha), unprocessed_appendBuf hr hfit,
        leftover_of_short hshort]
    · rw [if_neg hshort]
      exact unprocessed_refillBuf htail s
  · rw [← hlen, ← leftover_length]
    exact buflen_refillBuf htail s

/-- Settles O37: what absorb writes by its closed form, and the rest by its frame. -/
theorem updateResult : Obligations.UpdateResult := by
  intro s len p r w hp hpay hr hw
  have hlen : (payloadBytes p len).length = len := payloadBytes_length (payload_length hpay)
  obtain ⟨u, w', hu, hc, hh, hrest, hbuf, hproc⟩ := absorb_result (payloadBytes p len) hr hw
  rw [hlen] at hbuf hproc
  refine ⟨_, w', exec_update_of_absorb hp hpay hu, hc, hh, hrest, hbuf, hproc, ?_⟩
  rw [absorb_frame hu]
  exact ⟨(Nat.add_assoc ..).symm, rfl, rfl, rfl, rfl, rfl, rfl, rfl, rfl, rfl, rfl, rfl, rfl⟩

/-! ### Chunks and bytes (R207) -/

/-- Compressing the blocks of d ++ e is compressing those of d, and then those of its tail and e. -/
theorem compressAll_fullBlocks_append {w u : StateWords} {d : List Byte}
    (h : compressAll w (fullBlocks d) = .ok u) (e : List Byte) :
    compressAll w (fullBlocks (d ++ e)) = compressAll u (fullBlocks (leftover d ++ e)) := by
  rw [fullBlocks_append, compressAll_append, h]

/-- The state in which the blocks of m are compressed to the state words w and counted in PROCESSED, and BUF holds
the tail of m and nothing else. -/
def State.absorbed (w : StateWords) (m : List Byte) (s : State) : State :=
  { s with
    h := writeFile w s.h
    processed := s.processed + BitVec.ofNat 64 (64 * (m.length / 64))
    buf := writeBytes emptyBuf 0 (leftover m)
    buflen := BitVec.ofNat 6 (leftover m).length }

/-- From a BUF that holds r and nothing else, absorb of d reaches `absorbed` of r ++ d. -/
theorem absorb_eq_absorbed {s : State} {r : List Byte} {w : StateWords} (d : List Byte)
    (hr : s.unprocessed = some r) (hbuf : s.buf = writeBytes emptyBuf 0 r) (hw : readFile s.mode s.h = some w) :
    ∃ w', compressAll w (fullBlocks (r ++ d)) = .ok w' ∧ s.absorb d = .ok (s.absorbed w' (r ++ d)) :=
  absorb_eq_clean hr hbuf hw

theorem unprocessed_absorbed (w : StateWords) (m : List Byte) (s : State) :
    (s.absorbed w m).unprocessed = some (leftover m) :=
  unprocessed_refillBuf (by rw [leftover_length]; omega) s

/-- The blocks of m and then those of its tail and d are counted as the blocks of m ++ d. -/
theorem absorbed_absorbed {w₁ w₂ : StateWords} (h : stateWordAlg w₁ = stateWordAlg w₂) (m d : List Byte)
    (s : State) : (s.absorbed w₁ m).absorbed w₂ (leftover m ++ d) = s.absorbed w₂ (m ++ d) := by
  have hcount : (m ++ d).length / 64 = m.length / 64 + (leftover m ++ d).length / 64 := by
    simp only [List.length_append, leftover_length]
    omega
  simp only [State.absorbed, writeFile_writeFile h, ← leftover_append, hcount, Nat.mul_add, BitVec.ofNat_add,
    BitVec.add_assoc]

/-- Settles O39: both ways compress the blocks of all the bytes and buffer their tail. -/
theorem absorbIsChunkingInvariant : Obligations.AbsorbIsChunkingInvariant := by
  intro s d₁ d₂ hi hp
  obtain ⟨r, w, hr, hbuf, hw⟩ := hi.active_reads hp
  obtain ⟨w₁, hc₁, ha₁⟩ := absorb_eq_absorbed d₁ hr hbuf hw
  have hw₁ : readFile s.mode (writeFile w₁ s.h) = some w₁ :=
    readFile_writeFile_of_compressAll hw hc₁
  obtain ⟨w₂, hc₂, ha₂⟩ := absorb_eq_absorbed d₂ (unprocessed_absorbed w₁ (r ++ d₁) s) rfl hw₁
  obtain ⟨w₃, hc₃, ha₃⟩ := absorb_eq_absorbed (d₁ ++ d₂) hr hbuf hw
  rw [← List.append_assoc] at hc₃ ha₃
  have hsame : w₂ = w₃ :=
    Except.ok.inj (hc₂.symm.trans ((compressAll_fullBlocks_append hc₁ d₂).symm.trans hc₃))
  rw [absorbed_absorbed (compressAll_alg hc₂).symm, hsame] at ha₂
  exact ⟨_, _, ha₁, ha₂, ha₃⟩

theorem absorbAligned_nil (s : State) : s.absorbAligned [] = .ok (s.refillBuf []) := rfl

/-- absorb_byte is absorb of one byte: where BUF is one byte short of a block, the byte completes it and leaves
nothing to absorb. -/
theorem absorbByte_eq_absorb (x : Byte) (s : State) : s.absorbByte x = s.absorb [x] := by
  by_cases hshort : s.buflen.toNat + 1 < 64
  · rw [State.absorbByte, if_pos hshort, absorb_of_short hshort]
  · have hfull : s.buflen.toNat = 63 := by
      have hlt := s.buflen.isLt
      omega
    have hno : ¬ s.buflen.toNat + [x].length < 64 := hshort
    have htake : [x].take (64 - s.buflen.toNat) = [x] := by rw [hfull]; rfl
    have hdrop : [x].drop (64 - s.buflen.toNat) = [] := by rw [hfull]; rfl
    rw [State.absorbByte, if_neg hshort, State.absorb, if_neg hno, if_neg (by omega), htake, hdrop]
    cases s.unprocessed with
    | none => rfl
    | some r =>
      dsimp only
      cases s.compressBlock (r ++ [x]) with
      | error e => rfl
      | ok t => exact (absorbAligned_nil t).symm

/-- Settles O40, by induction on the bytes: the first one absorbed is a chunk of its own. -/
theorem absorbIsBytewise : Obligations.AbsorbIsBytewise := by
  intro s d hi hp
  obtain ⟨t, ht⟩ := hi.absorb_ok hp d
  refine ⟨t, ht, ?_⟩
  induction d generalizing s with
  | nil => rw [← ht, absorb_nil]; rfl
  | cons x d ih =>
    obtain ⟨u, v, hu, hv, hall⟩ := absorbIsChunkingInvariant s [x] d hi hp
    obtain rfl : v = t := Except.ok.inj (hall.symm.trans ht)
    have hpu : u.phase = .active := by rw [absorb_frame hu, hp]
    simp only [State.absorbBytewise, absorbByte_eq_absorb, hu]
    exact ih u (hi.absorb hp hu) hpu hv

/-! ### Padding (R216, R217) -/

theorem pad_length (r : List Byte) (bits : BitVec 64) : (pad r bits).length = r.length + 1 + padZeros r.length + 8 := by
  simp [pad, be64Bytes]
  omega

theorem padZeros_lt (n : Nat) : padZeros n < 64 := Nat.mod_lt _ (by decide)

theorem pad_length_mod {r : List Byte} (h : r.length < 64) (bits : BitVec 64) : (pad r bits).length % 64 = 0 := by
  rw [pad_length, padZeros]
  omega

theorem foldl_be64Bytes (bits : BitVec 64) :
    (be64Bytes bits).foldl (fun acc b => acc * 256 + b.toNat) 0 = bits.toNat := by
  have hlt := bits.isLt
  simp only [be64Bytes, List.foldl_cons, List.foldl_nil, BitVec.extractLsb'_toNat, Nat.shiftRight_eq_div_pow]
  omega

/-- Settles O43: the lengths from the number of zeros, and the length field by its bytes. -/
theorem paddingRule : Obligations.PaddingRule := by
  intro r bits hr
  have hz : (padZeros r.length : Int) = (55 - (r.length : Int)) % 64 := by
    rw [padZeros]
    omega
  have hlen := pad_length r bits
  rw [padZeros] at hlen
  exact ⟨⟨padZeros r.length, hz, rfl⟩, fun h => by omega, fun h => by omega, rfl, foldl_be64Bytes bits⟩

/-- Settles O44: BUFLEN widened keeps its value, and the sum and the product wrap. -/
theorem bitLengthWraps : Obligations.BitLengthWraps := by
  intro s
  have hwide : (s.buflen.setWidth 64).toNat = s.buflen.toNat := BitVec.toNat_setWidth_of_le (by decide)
  rw [State.bitlen, BitVec.toNat_mul, BitVec.toNat_add, hwide]
  rfl

/-! ### FINALIZE -/

/-- What FINALIZE computes: the padded unprocessed bytes compressed from the state words (R215). -/
theorem finalWords_eq_ok {s : State} {w' : StateWords} :
    s.finalWords = .ok w' ↔ ∃ r w, s.unprocessed = some r ∧ readFile s.mode s.h = some w ∧
      compressAll w (fullBlocks (pad r s.bitlen)) = .ok w' := by
  unfold State.finalWords
  cases hr : s.unprocessed with
  | none => simp
  | some r => cases hw : readFile s.mode s.h <;> simp

theorem exec_finalize_of_finalWords {s : State} {w : StateWords} (hp : s.phase = .active)
    (hw : s.finalWords = .ok w) : exec .finalize s = .next ((s.setFinal w).consume 1) := by
  simp only [exec, execFinalize, whenActive_active hp, finalized_eq_ok.2 ⟨w, hw, rfl⟩, conclude]

/-- The one way FINALIZE answers a next state in ACTIVE: it aborts on ⊥ only, which is a fault. -/
theorem exec_finalize_eq_next {s t : State} (hp : s.phase = .active) (h : exec .finalize s = .next t) :
    ∃ w, s.finalWords = .ok w ∧ t = (s.setFinal w).consume 1 := by
  cases hw : s.finalWords with
  | ok w =>
    rw [exec_finalize_of_finalWords hp hw] at h
    cases h
    exact ⟨w, rfl, rfl⟩
  | error e =>
    obtain rfl := finalWords_error hw
    simp [exec, execFinalize, whenActive_active hp, State.finalized, hw, conclude] at h

/-- The padded remainder is whole blocks: none of its bytes is left over. -/
theorem fullBlocks_pad_flatten {r : List Byte} (h : r.length < 64) (bits : BitVec 64) :
    (fullBlocks (pad r bits)).flatten = pad r bits := by
  have htail : leftover (pad r bits) = [] :=
    List.eq_nil_of_length_eq_zero (by rw [leftover_length, pad_length_mod h])
  have hall := fullBlocks_flatten_leftover (pad r bits)
  rwa [htail, List.append_nil] at hall

/-- Settles O42: the padded remainder is whole blocks, so its compression succeeds and uses all its bytes. -/
theorem finalizeResult : Obligations.FinalizeResult := by
  refine ⟨by decide, fun s r w hp hr hw => ?_, fun s hp => exec_uninit (fun _ h => nomatch h) hp⟩
  obtain ⟨w', hc⟩ := compressAll_ok w (fullBlocks_sizes (pad r s.bitlen))
  have hlt : r.length < 64 := unprocessed_length hr ▸ s.buflen.isLt
  exact ⟨w', hc, fullBlocks_pad_flatten hlt _,
    exec_finalize_of_finalWords hp (finalWords_eq_ok.2 ⟨r, w, hr, hw, hc⟩)⟩

/-- Settles O45: FINALIZE leaves what absorb and FINALIZE read as it was. -/
theorem finalizeIsIdempotent : Obligations.FinalizeIsIdempotent := by
  intro s t hp h
  obtain ⟨w, hw, rfl⟩ := exec_finalize_eq_next hp h
  obtain ⟨r, v, hr, hv, -⟩ := finalWords_eq_ok.1 hw
  refine ⟨⟨_, exec_finalize_of_finalWords hp hw, rfl, rfl⟩, fun d a ha => ?_⟩
  obtain ⟨v₁, hc₁, ha₁⟩ := absorb_eq (d := d) hr hv
  obtain ⟨v₂, hc₂, ha₂⟩ := absorb_eq (s := (s.setFinal w).consume 1) (d := d) hr hv
  obtain rfl := Except.ok.inj (hc₁.symm.trans hc₂)
  obtain rfl := Except.ok.inj (ha₁.symm.trans ha)
  exact ⟨_, ha₂, rfl⟩

/-- With n bytes absorbed since PROCESSED was 0, the length field holds 8·n modulo 2^64 (R217). -/
theorem bitlen_of_counts {s : State} {n : Nat} (hbuf : s.buflen.toNat = n % 64)
    (hproc : s.processed = BitVec.ofNat 64 (64 * (n / 64))) : s.bitlen = BitVec.ofNat 64 (8 * n) := by
  apply BitVec.eq_of_toNat_eq
  rw [bitLengthWraps, hbuf, hproc, BitVec.toNat_ofNat, BitVec.toNat_ofNat]
  omega

/-- The blocks of a message and then those of its padded tail are the blocks of the message padded. -/
theorem compressAll_fullBlocks_pad {w u : StateWords} {d : List Byte}
    (h : compressAll w (fullBlocks d) = .ok u) (bits : BitVec 64) :
    compressAll w (fullBlocks (d ++ [0x80] ++ List.replicate (padZeros (leftover d).length) 0 ++ be64Bytes bits)) =
      compressAll u (fullBlocks (pad (leftover d) bits)) := by
  simp only [pad, List.append_assoc]
  exact compressAll_fullBlocks_append h _

/-- What FINALIZE reads after a message was absorbed by an empty accumulator: the chain over its blocks from the
state words there were, its tail, and its length in bits (R207, R217). -/
theorem absorb_of_empty {s : State} {w : StateWords} (hw : readFile s.mode s.h = some w) (hbuf : s.buflen = 0)
    (hproc : s.processed = 0) (d : List Byte) :
    ∃ t w', s.absorb d = .ok t ∧ compressAll w (fullBlocks d) = .ok w' ∧ readFile t.mode t.h = some w' ∧
      t.unprocessed = some (leftover d) ∧ t.bitlen = BitVec.ofNat 64 (8 * d.length) := by
  have hr : s.unprocessed = some [] := by
    rw [State.unprocessed, hbuf]
    rfl
  obtain ⟨t, w', ht, hc, hh, hrest, hbuf', hproc'⟩ := absorb_result d hr hw
  have hmode : t.mode = s.mode := by rw [absorb_frame ht]
  have hw' : readFile t.mode t.h = some w' := by
    rw [hmode, hh]
    exact readFile_writeFile_of_compressAll hw hc
  have hcount : s.buflen.toNat + d.length = d.length := hbuf ▸ Nat.zero_add _
  rw [hcount] at hbuf' hproc'
  rw [hproc] at hproc'
  exact ⟨t, w', ht, hc, hw', hrest, bitlen_of_counts hbuf' (hproc'.trans (BitVec.zero_add _))⟩

/-- Absorption compresses the message's blocks, FINALIZE those of the padded tail, and together they are the blocks
of the padded message: so from the empty accumulator that INIT, RESET and FRESET all leave. -/
theorem finalize_absorb_of_empty {s : State} {w : StateWords} (hp : s.phase = .active)
    (hw : readFile s.mode s.h = some w) (hbuf : s.buflen = 0) (hproc : s.processed = 0) (d : List Byte) :
    ∃ (t : State) (z : Nat) (w' : StateWords), s.absorb d = .ok t ∧ z < 64 ∧ (d.length + 1 + z + 8) % 64 = 0 ∧
      compressAll w (fullBlocks
        (d ++ [0x80] ++ List.replicate z 0 ++ be64Bytes (BitVec.ofNat 64 (8 * d.length)))) = .ok w' ∧
      exec .finalize { t with cmd := [0x03000000] } =
        .next { t with f := freshFile w', fvalid := true, cpos := t.cpos + 1, cmd := [] } := by
  obtain ⟨t, u, ht, hc, hu, hrest, hbits⟩ := absorb_of_empty hw hbuf hproc d
  have hpt : t.phase = .active := by rw [absorb_frame ht, hp]
  obtain ⟨w', hc'⟩ := compressAll_ok u (fullBlocks_sizes (pad (leftover d) t.bitlen))
  have hf : t.finalWords = .ok w' := finalWords_eq_ok.2 ⟨_, u, hrest, hu, hc'⟩
  refine ⟨t, padZeros (leftover d).length, w', ht, padZeros_lt _, ?_, ?_, exec_finalize_of_finalWords hpt hf⟩
  · rw [leftover_length, padZeros]
    omega
  · rw [compressAll_fullBlocks_pad hc, ← hbits, hc']

/-- Settles O46: INIT leaves an empty accumulator with the initialization constants in H. -/
theorem finalizeGivesTheMessageDigest : Obligations.FinalizeGivesTheMessageDigest := fun alg _ d =>
  have hiv : readFile alg (freshFile (initialWords alg)) = some (initialWords alg) :=
    readFile_writeFile (initialWords_alg alg) RegFile.bottom
  finalize_absorb_of_empty rfl hiv rfl rfl d

/-! ### INIT and RESET -/

/-- INIT makes no difference between UNINIT and ACTIVE (R200). -/
theorem exec_init_of_not_halted {s : State} (hp : s.phase ≠ .halted) (alg : Alg) :
    exec (.init alg) s = exec (.init alg) { s with phase := .active } := by
  simp only [exec, execInit]
  cases h : s.phase with
  | halted => exact absurd h hp
  | uninit | active => rfl

/-- Settles O36: the phase decides, and the constants are those of `initialWords`. -/
theorem initResult : Obligations.InitResult :=
  ⟨by decide, by decide, fun alg _ hp => exec_halted hp (.init alg), fun _ _ hi hp => exec_uninit hi hp,
    fun _ hp => ⟨exec_init_of_not_halted hp .sha1, exec_init_of_not_halted hp .sha256⟩⟩

/-- Settles O41: the constants of MODE, under either algorithm. -/
theorem resetResult : Obligations.ResetResult := by
  refine ⟨by decide, fun s hp => ?_, fun s hp => exec_uninit (fun _ h => nomatch h) hp⟩
  have he : exec .reset s = .next (s.freshAccumulator.consume 1) := whenActive_active hp _
  rw [he, State.freshAccumulator]
  cases s.mode <;> rfl

end Sys2Proof.Machine

/-! The finalized state's commands (42_finalize.md): DIGEST, FRESET, and the digest words fed back as a payload. -/

namespace Sys2Proof.Machine

/-! ### Digest words as payload -/

/-- The first four bytes of a byte string are packed as one word, the rest as without them (R109). -/
theorem packBytes_be32Bytes_append (x : Word) (d : List Byte) :
    packBytes (be32Bytes x ++ d) = x :: packBytes d := by
  have hlen : wordsForBytes (be32Bytes x ++ d).length = wordsForBytes d.length + 1 := by
    rw [List.length_append, be32Bytes_length, wordsForBytes, wordsForBytes]
    omega
  have hhead : packWord (be32Bytes x ++ d) = x := be32_of_bytes x
  have htail (j : Nat) : (be32Bytes x ++ d).drop (4 * (j + 1)) = d.drop (4 * j) := by
    rw [List.drop_append, be32Bytes_length, List.drop_eq_nil_of_le (by rw [be32Bytes_length]; omega),
      List.nil_append, Nat.mul_succ, Nat.add_sub_cancel]
  rw [packBytes, hlen, List.range_succ_eq_map, List.map_cons, List.map_map, Nat.mul_zero, List.drop_zero, hhead]
  exact congrArg (x :: ·) (List.map_congr_left fun j _ => congrArg packWord (htail j))

/-- Packing the big-endian bytes of words gives the words back (R104, R241). -/
theorem packBytes_flatMap_be32Bytes (ws : List Word) : packBytes (ws.flatMap be32Bytes) = ws := by
  induction ws with
  | nil => rfl
  | cons x ws ih => rw [List.flatMap_cons, packBytes_be32Bytes_append, ih]

/-- Settles O48: the payload is read to its last byte, and each word is packed from its own four bytes. -/
theorem digestWordsFeedBack : Obligations.DigestWordsFeedBack := fun ws =>
  ⟨List.take_of_length_le (flatMap_be32Bytes_length ws).le, packBytes_flatMap_be32Bytes ws⟩

/-! ### DIGEST -/

/-- DIGEST with a finalized state and room appends the words of F, entry 0 first (R240). -/
theorem exec_digest_of_room {s : State} {w : StateWords} (hp : s.phase = .active) (hv : s.fvalid = true)
    (hr : s.hasRoom = true) (hw : readFile s.mode s.f = some w) :
    exec .digest s = .next ((s.pushOut w).consume 1) := by
  simp [exec, execDigest, whenActive_active hp, hv, hr, outputFile_eq_ok.2 ⟨w, hw, rfl⟩, conclude]

/-- Without a finalized state DIGEST takes NO_RESULT, and OUT is not looked at (R240). -/
theorem exec_digest_of_not_fvalid {s : State} (hp : s.phase = .active) (hv : s.fvalid = false) :
    exec .digest s = .next (s.raiseFault .noResult) := by
  rw [exec, execDigest, whenActive_active hp, if_pos hv]

theorem waits_digest {s : State} (hp : s.phase = .active) : waits .digest s = (s.fvalid && !s.hasRoom) := by
  simp only [waits, hp]

/-- Settles O47: the words read under either algorithm, the hold by `waits`, and the two faults. -/
theorem digestResult : Obligations.DigestResult := by
  refine ⟨by decide, fun s a b c d e hp hv hm hroom h0 h1 h2 h3 h4 => ?_,
    fun s a b c d e f g h hp hv hm hroom h0 h1 h2 h3 h4 h5 h6 h7 => ?_, fun s hp hv hfull => ?_,
    fun s hp hv => ⟨?_, exec_digest_of_not_fvalid hp hv⟩, fun s hp => exec_uninit (fun _ h => nomatch h) hp⟩
  · have hw : readFile s.mode s.f = some (.sha1 ⟨a, b, c, d, e⟩) := hm ▸ readFile_sha1 h0 h1 h2 h3 h4
    exact exec_digest_of_room hp hv (hasRoom_iff.2 (hm ▸ hroom)) hw
  · have hw : readFile s.mode s.f = some (.sha256 ⟨a, b, c, d, e, f, g, h⟩) :=
      hm ▸ readFile_sha256 h0 h1 h2 h3 h4 h5 h6 h7
    exact exec_digest_of_room hp hv (hasRoom_iff.2 (hm ▸ hroom)) hw
  · have hwait : waits .digest s = true := by rw [waits_digest hp, hv, hasRoom_eq_false.2 hfull]; rfl
    exact ⟨hwait, exec_of_waits hwait⟩
  · rw [waits_digest hp, hv, Bool.false_and]

/-! ### FRESET -/

theorem exec_reset_active {s : State} (hp : s.phase = .active) :
    exec .reset s = .next (s.freshAccumulator.consume 1) :=
  whenActive_active hp _

theorem exec_freset_active {s : State} (hp : s.phase = .active) :
    exec .freset s = .next (s.freshAccumulator.discardFinal.consume 1) :=
  whenActive_active hp _

/-- FRESET is RESET and then F discarded (R245). -/
theorem exec_freset_of_reset {s t : State} (hp : s.phase = .active) (h : exec .reset s = .next t) :
    exec .freset s = .next t.discardFinal := by
  rw [exec_reset_active hp] at h
  cases h
  exact exec_freset_active hp

/-- Settles O49: the constants of MODE, under either algorithm, and F discarded as after RESET. -/
theorem fresetResult : Obligations.FresetResult := by
  refine ⟨by decide, fun s hp => ⟨?_, fun t ht => exec_freset_of_reset hp ht⟩,
    fun s hp => exec_uninit (fun _ h => nomatch h) hp⟩
  rw [exec_freset_active hp, State.freshAccumulator]
  cases s.mode <;> rfl

end Sys2Proof.Machine

/-! Faults and HALTED, and what a waiting command waits for (60_exceptions.md R272 to R274, R278, R286). -/

namespace Sys2Proof.Machine

/-! ### Taking a fault, and discarding words -/

/-- An enabled command that moves the engine to HALTED has made the fault entry with one of its codes (R271, R272). -/
theorem ExecCase.raises_of_halted {i : Instr} {s t : State} (h : ExecCase i s t) (ht : t.phase = .halted) :
    ∃ c, (c = .notInit ∨ c = .blockSize ∨ c = .noResult) ∧ t = s.raiseFault c := by
  cases h with
  | notInit => exact ⟨_, .inl rfl, rfl⟩
  | updateBlockSize | finalizeBlockSize | compressLen | compressBlockSize => exact ⟨_, .inr (.inl rfl), rfl⟩
  | noResult => exact ⟨_, .inr (.inr rfl), rfl⟩
  | init => exact nomatch ht
  | finalize hp | digest hp | reset hp | freset hp | readh hp => exact nomatch hp.symm.trans ht
  | update _ hp _ hu =>
    rw [absorb_frame hu] at ht
    exact nomatch hp.symm.trans ht
  | compress hp _ hu =>
    rw [compressIntoH_frame hu] at ht
    exact nomatch hp.symm.trans ht

/-- Settles O53: a held command changes nothing, and an enabled one that halts has made the fault entry. -/
theorem faultEntry : Obligations.FaultEntry := by
  refine ⟨fun i s t h hp ht => ?_, fun s w rest e hr hh hc hp hd => step_of_illegal hr hh hc hp hd⟩
  cases hw : waits i s with
  | true =>
    rw [exec_of_waits hw] at h
    cases h
    exact absurd ht hp
  | false =>
    obtain ⟨c, hcode, rfl⟩ := (exec_next_cases hw hp h).raises_of_halted ht
    exact ⟨hcode, rfl⟩

/-- Settles O54: the discarded word is the head of the stream, and the reads do not look at PHASE. -/
theorem haltedDiscardsWords : Obligations.HaltedDiscardsWords := by
  refine fun s hp => ⟨fun w rest hr hh hc => ?_, fun x rest ho => ?_, rfl⟩
  · rw [step_halted_discards hr hh hc hp, State.discardWord, State.consume, hc]
    rfl
  · rw [hostMove, readDout_of_cons ho]

/-! ### Runs in HALTED -/

/-- A property that every step keeps holds at the end of every run. -/
theorem run_keeps {P : State → Prop} (hstep : ∀ u v, P u → step u = .next v → P v) {n : Nat} {s t : State}
    (hs : P s) (h : Host.Core.run Sys2Proof.core n s = .next t) : P t := by
  induction n generalizing s with
  | zero =>
    cases h
    exact hs
  | succ n ih =>
    cases hu : step s with
    | next u =>
      rw [run_of_step hu] at h
      exact ih (hstep s u hs hu) h
    | fault r | refused r =>
      have hc : Sys2Proof.core.step s = _ := hu
      simp [Host.Core.run, hc] at h

theorem AssertsRst.mem_host {s : State} (h : AssertsRst s) : .assertRst ∈ s.host := by
  rcases h with hhead | ⟨-, hmem⟩
  · exact List.mem_of_head? hhead
  · exact hmem

/-- Where no RST is asserted a step leaves the host the accesses it had, or all but the next one. -/
theorem step_host_kept_or_tail {s t : State} (h : step s = .next t) (hn : ¬ AssertsRst s) :
    t.host = s.host ∨ ∃ m, s.host = m :: t.host := by
  rcases commandStreamIsConsumedInOrder s t h hn with
    ⟨i, -, -, -, -, -, hhost⟩ | ⟨-, -, -, -, -, hhost⟩ | ⟨m, w, rest, -, -, hs, -, hhost, -⟩ |
    ⟨-, -, -, hhost | ⟨m, rest, hs, hhost, -⟩⟩
  · exact .inl hhost
  · exact .inl hhost
  · exact .inr ⟨m, hhost ▸ hs⟩
  · exact .inl hhost
  · exact .inr ⟨m, hhost ▸ hs⟩

/-- The host's turn without RST writes no element of the engine's state but OUT. -/
theorem hostStep_keeps {s t : State} (h : hostStep s = .next t) (hn : ¬ AssertsRst s) :
    t.phase = s.phase ∧ t.mode = s.mode ∧ t.h = s.h ∧ t.f = s.f ∧ t.fvalid = s.fvalid ∧ t.err = s.err := by
  rw [(hostStep_rst_or_frame h).resolve_left fun ⟨hr, _⟩ => hn hr]
  exact ⟨rfl, rfl, rfl, rfl, rfl, rfl⟩

/-- In HALTED a step without RST writes neither PHASE nor any of ERR, H, F and MODE (R273, R274). -/
theorem step_halted_keeps {s t : State} (hp : s.phase = .halted) (h : step s = .next t) (hn : ¬ AssertsRst s) :
    t.phase = .halted ∧ t.err = s.err ∧ t.h = s.h ∧ t.f = s.f ∧ t.mode = s.mode := by
  rcases step_next_cases h with ⟨-, ht⟩ | ⟨-, -, -, rfl⟩ | ⟨-, hne, -⟩ | ⟨i, hturn, -⟩
  · obtain ⟨hphase, hmode, hh, hf, -, herr⟩ := hostStep_keeps ht hn
    exact ⟨hphase.trans hp, herr, hh, hf, hmode⟩
  · exact ⟨hp, rfl, rfl, rfl, rfl⟩
  · exact absurd hp hne
  · obtain ⟨-, -, hne, -⟩ := turn_eq_command hturn
    exact absurd hp hne

/-- What a run without RST keeps of the HALTED state s it starts in: u is HALTED too, has no RST to come, and
holds what s holds. -/
structure HaltedAs (s u : State) : Prop where
  noRst : .assertRst ∉ u.host
  kept : u.phase = .halted ∧ u.err = s.err ∧ u.h = s.h ∧ u.f = s.f ∧ u.mode = s.mode

theorem HaltedAs.of_step {s u v : State} (hu : HaltedAs s u) (h : step u = .next v) : HaltedAs s v := by
  have hn : ¬ AssertsRst u := fun hr => hu.noRst hr.mem_host
  obtain ⟨hp, herr, hh, hf, hmode⟩ := hu.kept
  obtain ⟨hp', herr', hh', hf', hmode'⟩ := step_halted_keeps hp h hn
  refine ⟨fun hm => hu.noRst ?_, hp', herr'.trans herr, hh'.trans hh, hf'.trans hf, hmode'.trans hmode⟩
  rcases step_host_kept_or_tail h hn with hhost | ⟨m, hhost⟩
  · exact hhost ▸ hm
  · exact hhost ▸ List.mem_cons_of_mem m hm

/-- Settles O55: every step keeps HaltedAs, so every run does. -/
theorem haltedRunsStayHalted : Obligations.HaltedRunsStayHalted := fun _ s _ hp hhost h =>
  have hs : HaltedAs s s := ⟨fun hm => hhost _ hm rfl, hp, rfl, rfl, rfl, rfl⟩
  (run_keeps (fun _ _ hu => hu.of_step) hs h).kept

/-! ### What a waiting command waits for -/

/-- While the command at cpos waits a step is the host's turn. -/
theorem CommandWaits.hostStep_of_step {s t : State} (h : CommandWaits s) (hs : step s = .next t) :
    hostStep s = .next t := by
  rwa [step, h.turn_eq_host] at hs

/-- UPDATE and COMPRESS wait for payload words alone; a COMPRESS of another length than a block has none
(R100, R278). -/
theorem waits_payload_iff {i : Instr} (hi : ∃ len, i = .update len ∨ i = .compress len) {s : State} :
    waits i s = true ↔ s.phase = .active ∧ s.cmd.length - 1 < payloadCount i := by
  refine ⟨fun hw => ⟨waits_phase hw, (waits_room_or_payload hw).resolve_left ?_⟩, fun ⟨hp, hlen⟩ => ?_⟩
  · obtain ⟨len, rfl | rfl⟩ := hi <;> exact nofun
  · obtain ⟨len, rfl | rfl⟩ := hi
    · simp only [waits, hp, payload_isNone, decide_eq_true_eq]
      exact hlen
    · by_cases hl : len = 64
      · simp only [payloadCount, hl, if_true] at hlen
        simp [waits, hp, payload_isNone, hl, hlen]
      · simp [payloadCount, hl] at hlen

/-- DIGEST and READH wait by PHASE, MODE, FVALID and OUT alone (R286). -/
theorem waits_output_congr {i : Instr} (hi : i = .digest ∨ i = .readh) {s t : State} (hp : t.phase = s.phase)
    (hm : t.mode = s.mode) (hv : t.fvalid = s.fvalid) (ho : t.out = s.out) : waits i t = waits i s := by
  rcases hi with rfl | rfl <;> simp only [waits, State.hasRoom, hp, hm, hv, ho]

/-- Settles O56: the payload's length decides the wait, and on the host's turn only a write to CMD adds to
the stream; behind these commands the CMD port holds no write, so RST is asserted as the next access only. -/
theorem missingPayloadWaits : Obligations.MissingPayloadWaits := by
  refine ⟨fun s len hp hne => ⟨?_, exec_of_waits⟩, fun s hp => ⟨?_, exec_of_waits⟩,
    fun s t w rest i hc hd hi hw h hfree => ?_⟩
  · have hpos : 0 < s.cmd.length ∨ 0 < len := hne.imp_left List.length_pos_of_ne_nil
    rw [waits_payload_iff ⟨len, .inl rfl⟩, and_iff_right hp, payloadCount, wordsForBytes]
    omega
  · rw [waits_payload_iff ⟨64, .inr rfl⟩, and_iff_right hp]
    simp only [payloadCount, if_true]
    omega
  · have hhost := ((commandWaits_iff hc hd).2 hw).hostStep_of_step h
    by_cases hr : AssertsRst s
    · refine .inr (hr.resolve_right fun ⟨⟨hheld, _⟩, _⟩ => ?_)
      obtain ⟨-, w', rest', j, hc', hd', hout, -⟩ := writeHeld_iff.1 hheld
      cases hc.symm.trans hc'
      cases hd.symm.trans hd'
      obtain ⟨len, rfl | rfl⟩ := hi <;> cases hout
    · rcases hostStep_stream hhost hr with ⟨m, x, _, -, -, -, -, -, hcmd⟩ | ⟨-, hcmd, -⟩
      · exact .inl ⟨x, hcmd⟩
      · obtain ⟨hphase, -⟩ := hostStep_keeps hhost hr
        have hwt : waits i t = true := by
          rw [waits_payload_iff hi, hphase, hcmd]
          exact (waits_payload_iff hi).1 hw
        exact nomatch hwt.symm.trans hfree

/-- Settles O57: the room in OUT decides the hold, a host without accesses makes the run stuck, and on the
host's turn OUT changes by a read of DOUT or by RST only. -/
theorem outputHold : Obligations.OutputHold := by
  refine ⟨fun s hp => ⟨?_, ?_, exec_of_waits, exec_of_waits⟩, fun n s w rest i hs hc hd _ hw => ?_,
    fun s t w rest i hc hd hi hw h hfree => ?_⟩
  · rw [waits_readh hp, Bool.not_eq_true']
    exact hasRoom_eq_false
  · rw [waits_digest hp, Bool.and_eq_true, Bool.not_eq_true']
    exact and_congr_right' hasRoom_eq_false
  · have hstuck : StuckRun s := ⟨(commandWaits_iff hc hd).2 hw, .inl hs⟩
    exact run_of_fixed hstuck.step_fixed n
  · have hhost := ((commandWaits_iff hc hd).2 hw).hostStep_of_step h
    by_cases hr : AssertsRst s
    · exact .inr hr
    · rcases hostStep_out_writers hhost with hout | ⟨-, hread⟩ | ⟨hr', -⟩
      · obtain ⟨hphase, hmode, -, -, hvalid, -⟩ := hostStep_keeps hhost hr
        exact nomatch hw.symm.trans ((waits_output_congr hi hphase hmode hvalid hout).symm.trans hfree)
      · exact .inl hread
      · exact absurd hr' hr

end Sys2Proof.Machine

/-! RST (70_reset_and_hazards.md R300, R301, R311): a step that asserts it, and the host's steps while it is
asserted. -/

namespace Sys2Proof.Machine

theorem writeCmd_of_rst {s : State} (h : s.rst = true) (w : Word) : s.writeCmd w = s := if_pos h

/-- The host's next access is made at once where RST wins the turn and the CMD port holds no write
(R276, R301). -/
theorem step_of_rst_wins {s : State} {m : HostMove} {rest : List HostMove} (hs : s.host = m :: rest)
    (hr : s.rst = true ∨ m = .assertRst) : step s = hostMove m { s with host := rest } := by
  have hturn : turn s = .host := turn_of_rst (hr.imp_right fun hm => by rw [hs, hm, List.head?_cons])
  have hfree : writesCmd m = true → s.writeHeld = false := fun hw =>
    writeHeld_of_rst (hr.resolve_right (writesCmd_ne_assertRst hw))
  simp only [step, hturn, hostStep_of_free hs hfree]

/-- Behind a held write the host's next RST is asserted by the step, and the accesses before it are dropped
(R286, R311, log entry 15). -/
theorem HostBlocked.step_assertRst {s : State} {pre rest : List HostMove} (h : HostBlocked s)
    (hs : s.host = pre ++ .assertRst :: rest) (hn : .assertRst ∉ pre) :
    step s = .next ({ s with host := rest } : State).assertRst := by
  simp only [step, h.commandWaits.turn_eq_host, hostStep_of_rst h hs hn]

/-- Settles O59: behind a held DIGEST or READH the host is blocked, and its step asserts the next RST; in the
other three cases RST wins the turn and the step is the host's access. -/
theorem rstRestoresTheResetState : Obligations.RstRestoresTheResetState := by
  refine ⟨fun s m pre rest x xs i hr hc hd hi hw hs hm hn => ?_, fun s rest hs => ?_,
    fun s w rest hr hs => ?_, fun s rest hr hs => ?_⟩
  · have hheld : s.writeHeld = true := writeHeld_iff.2 ⟨hr, x, xs, i, hc, hd, isOutput_iff.2 hi, hw⟩
    have hblocked : HostBlocked s := ⟨hheld, m, pre ++ .assertRst :: rest, hs, hm⟩
    exact hblocked.step_assertRst hs
      (List.not_mem_cons_of_ne_of_not_mem (writesCmd_ne_assertRst hm).symm hn)
  · exact step_of_rst_wins hs (.inr rfl)
  · rw [step_of_rst_wins hs (.inl hr), hostMove, writeCmd_of_rst (s := { s with host := rest }) hr]
  · exact step_of_rst_wins hs (.inl hr)

end Sys2Proof.Machine
